-- ==== Sys2Proof/Word.lean ====
section
/-! DEFINITION. The words that cross the block's boundary or are held in it. -/

namespace Sys2Proof

/-- A data word: a lane, an output word, a cursor word, a destination word. 64 bits, unsigned (00_scope.md R10).
The operators of 00_scope.md section 6 are `BitVec`'s: `^^^`, `<<<`, `>>>` (logical), wrapping `+` and `*`. -/
abbrev Word := BitVec 64

/-- A command word `CW`, 80 bits (30_encoding.md R61). -/
abbrev CommandWord := BitVec 80

/-- A response word `RSP`, 4 bits (30_encoding.md R68). -/
abbrev ResponseWord := BitVec 4

end Sys2Proof
end

