-- ==== Sys2Proof/Config.lean ====
section
/-! DEFINITION. The parameters a block is built with (00_scope.md R4, R5), the open constant that stands for the
parameters of the block in hand, and the spec's three reference configurations. -/

namespace Sys2Proof

/-- The immutable record of 00_scope.md R4. The ranges of R4 and R5 are proof fields: "A configuration that violates a
range is not a configuration of this hardware", so none can be built. No command reads or changes a field (R173). -/
structure Config where
  /-- Lane count. -/
  N : Nat
  /-- First shift amount, to the left. -/
  a : Nat
  /-- Second shift amount, to the right. -/
  b : Nat
  /-- Third shift amount, to the left. -/
  c : Nat
  /-- Lane offset of the R+ combination. -/
  R : Nat
  /-- The mixing step, assumed only to be a function (40_seed_expander.md R83). -/
  mix : Word → Word
  /-- The lane-index-derived constant (40_seed_expander.md R82). -/
  laneConst : Fin N → Word
  /-- The vector loaded where the expansion would be all zero (40_seed_expander.md R85). -/
  fallback : Fin N → Word
  two_le_N : 2 ≤ N
  a_range : 1 ≤ a ∧ a ≤ 63
  b_range : 1 ≤ b ∧ b ≤ 63
  c_range : 1 ≤ c ∧ c ≤ 63
  R_range : 1 ≤ R ∧ R ≤ N - 1
  fallback_nonzero : ∃ i, fallback i ≠ 0

/-- A vector of `N` words: the contents of LaneState, or the `N` outputs of a round. A value of a computation; what
`State` stores is the list of its entries. -/
abbrev LaneVec (cfg : Config) := Fin cfg.N → Word

theorem Config.N_pos (cfg : Config) : 0 < cfg.N := Nat.lt_of_lt_of_le (by decide) cfg.two_le_N

/-- The reference mixing step of 40_seed_expander.md R83 (the spec marks it "from general knowledge, not in source"). -/
def Config.refMix (z : Word) : Word :=
  let z1 := (z ^^^ (z >>> 30)) * 0xBF58476D1CE4E5B9
  let z2 := (z1 ^^^ (z1 >>> 27)) * 0x94D049BB133111EB
  z2 ^^^ (z2 >>> 31)

/-- The reference lane constant of 40_seed_expander.md R82: `(i + 1) *w 0x9E3779B97F4A7C15`. -/
def Config.refLaneConst (i : Nat) : Word := BitVec.ofNat 64 (i + 1) * 0x9E3779B97F4A7C15

/-- REF4 of 92_eei_decisions.md: the spec's own choice, for test vectors, no preset of the repository. -/
def Config.ref4 : Config where
  N := 4
  a := 13
  b := 7
  c := 17
  R := 1
  mix := Config.refMix
  laneConst := fun i => Config.refLaneConst i
  fallback := fun i => Config.refLaneConst i
  two_le_N := by decide
  a_range := by decide
  b_range := by decide
  c_range := by decide
  R_range := by decide
  fallback_nonzero := ⟨0, by decide⟩

/-- REF8 of 92_eei_decisions.md. -/
def Config.ref8 : Config where
  N := 8
  a := 21
  b := 35
  c := 4
  R := 3
  mix := Config.refMix
  laneConst := fun i => Config.refLaneConst i
  fallback := fun i => Config.refLaneConst i
  two_le_N := by decide
  a_range := by decide
  b_range := by decide
  c_range := by decide
  R_range := by decide
  fallback_nonzero := ⟨0, by decide⟩

/-- TESTZ of 92_eei_decisions.md: REF4 with `Mix` the constant zero, to reach the fallback. -/
def Config.testZ : Config := { Config.ref4 with mix := fun _ => 0 }

/-- Some configuration, without a body: nothing can be proved of it but what every `Config` has. The argument only
shows that a configuration exists. -/
opaque Config.chosen [Inhabited Config] : Config

/-- The configuration of the block in hand: every parameter the spec leaves OPEN (92_eei_decisions.md D1 to D6, log
entry 1), as ONE uninterpreted constant. A statement about `Config.block` holds for every configuration. -/
def Config.block : Config := @Config.chosen ⟨Config.ref4⟩

end Sys2Proof
end

