-- ==== Sys2Proof/Syntax.lean ====
section
/-! DEFINITION. The commands of the block: one constructor per row of spec/opcode_table.json. -/

namespace Sys2Proof

/-- A decoded command (30_encoding.md R62). `slen` and `len` count bits and words, so they are naturals, bounded by
`Instr.WellFormed` to the widths of their fields (R66); `seed` is a word. -/
inductive Instr where
  /-- `NOP` (43_lifecycle_commands.md R140). -/
  | nop
  /-- `SEED slen, seed` (40_seed_expander.md R86). -/
  | seed (slen : Nat) (seed : Word)
  /-- `FILL len` (42_fill_stream_cursor.md R121). -/
  | fill (len : Nat)
  /-- `RELEASE` (43_lifecycle_commands.md R141). -/
  | release
deriving DecidableEq, Repr

end Sys2Proof
end

