-- ==== Sys2Proof/WellFormed.lean ====
section
/-! DEFINITION. Which commands have an encoding: the operand ranges of 30_encoding.md R61, R64, R65. -/

namespace Sys2Proof

/-- The operands fit their fields: `slen` in `0..255` (8 bits), `len` in `0..2^64-1` (64 bits). -/
def Instr.wellFormed : Instr → Bool
  | .nop => true
  | .seed slen _ => decide (slen < 256)
  | .fill len => decide (len < 18446744073709551616)
  | .release => true

/-- The well-formed commands, as a proposition. -/
abbrev Instr.WellFormed (i : Instr) : Prop := i.wellFormed = true

end Sys2Proof
end

