-- ==== Sys2Proof/Decode.lean ====
section
/-! DEFINITION. The decoder of 30_encoding.md R69 and, after it, the encoder of R61 and R63 to R65. -/

namespace Sys2Proof

/-- Why a command word is illegal (30_encoding.md R67 (a) to (d)). The block reports none of this but the response
IllegalCommand (60_exceptions.md R153). -/
inductive Illegal where
  /-- `op` in `0x4..0xF`. -/
  | reservedOp
  /-- `rsv` not zero. -/
  | rsvNotZero
  /-- `slen` not zero in NOP, FILL or RELEASE. -/
  | slenNotZero
  /-- `arg` not zero in NOP or RELEASE. -/
  | argNotZero
deriving DecidableEq, Repr

/-- `CW[3:0]` (30_encoding.md R61). -/
def opField (cw : CommandWord) : BitVec 4 := cw.extractLsb' 0 4

/-- `CW[7:4]`. -/
def rsvField (cw : CommandWord) : BitVec 4 := cw.extractLsb' 4 4

/-- `CW[15:8]`. -/
def slenField (cw : CommandWord) : BitVec 8 := cw.extractLsb' 8 8

/-- `CW[79:16]`. -/
def argField (cw : CommandWord) : BitVec 64 := cw.extractLsb' 16 64

/-- Format Z: a command without operands, every bit outside `op` zero (30_encoding.md R63). -/
def decodeZ (i : Instr) (cw : CommandWord) : Except Illegal Instr :=
  if slenField cw = 0 then
    if argField cw = 0 then .ok i else .error .argNotZero
  else .error .slenNotZero

/-- Format S (30_encoding.md R64): `arg` is the seed word, `slen` the declared number of bits. -/
def decodeS (cw : CommandWord) : Except Illegal Instr :=
  .ok (.seed (slenField cw).toNat (argField cw))

/-- Format L (30_encoding.md R65): `arg` is the length, `slen` zero. -/
def decodeL (cw : CommandWord) : Except Illegal Instr :=
  if slenField cw = 0 then .ok (.fill (argField cw).toNat) else .error .slenNotZero

/-- The decoder, total on every 80-bit word (30_encoding.md R69). -/
def decode (cw : CommandWord) : Except Illegal Instr :=
  if rsvField cw = 0 then
    if opField cw = 0x0 then decodeZ .nop cw
    else if opField cw = 0x1 then decodeS cw
    else if opField cw = 0x2 then decodeL cw
    else if opField cw = 0x3 then decodeZ .release cw
    else .error .reservedOp
  else .error .rsvNotZero

/-- The operation code of a command (30_encoding.md R62). -/
def opcodeOf : Instr → BitVec 4
  | .nop => 0x0
  | .seed _ _ => 0x1
  | .fill _ => 0x2
  | .release => 0x3

/-- What a command puts into `slen` (30_encoding.md R63 to R65). -/
def slenOf : Instr → BitVec 8
  | .seed slen _ => BitVec.ofNat 8 slen
  | .nop => 0
  | .fill _ => 0
  | .release => 0

/-- What a command puts into `arg` (30_encoding.md R63 to R65). -/
def argOf : Instr → BitVec 64
  | .seed _ seed => seed
  | .fill len => BitVec.ofNat 64 len
  | .nop => 0
  | .release => 0

/-- A command word from its four fields, `arg` in the highest bits (30_encoding.md R61). -/
def assemble (arg : BitVec 64) (slen : BitVec 8) (rsv op : BitVec 4) : CommandWord :=
  ((arg ++ slen) ++ rsv) ++ op

/-- The word of a command; for a well-formed one `decode` gives the command back. -/
def encode (i : Instr) : CommandWord :=
  assemble (argOf i) (slenOf i) 0 (opcodeOf i)

/-- The decoder as the opcode table numbers bits: `w`, its first `nbits` bits, every higher bit zero. No command is
longer than 80 bits (30_encoding.md R61). -/
def decodeTableWord (nbits w : Nat) : Option Instr :=
  if nbits ≤ 80 then (decode (BitVec.ofNat 80 (w % 2 ^ nbits))).toOption else none

end Sys2Proof
end

