-- ==== Sys2Proof/Machine/State.lean ====
section
/-! DEFINITION. The state of the block as plain data, the reasons a step can stop, and the state after reset. -/

namespace Sys2Proof.Machine

/-- LaneState, the `N` lanes (10_state.md R20). Every operation writes or discards all lanes together (R21, R33), so
either no lane holds a value or all do. `noValue` is the spec's own state of 10_state.md R33, "The model must not give
it a value"; it is no placeholder for a missing reset value (log entry 2). -/
inductive Lanes where
  /-- No lane holds a value: after reset and after RELEASE (10_state.md R33, R34). -/
  | noValue
  /-- The words of lanes `0, 1, ...` in order. -/
  | held (words : List Word)
deriving DecidableEq, Repr

/-- The ghost quantities of 10_state.md R31, defined while a Generator exists. No meaning's outcome depends on them. -/
structure Ghost where
  /-- `S0`, the vector the latest successful SEED wrote. -/
  s0 : List Word
  /-- Rounds run since that SEED. -/
  rounds : Nat
  /-- Words delivered since that SEED. -/
  delivered : Nat
deriving DecidableEq, Repr

/-- What the host, or the reset line, does next (log entries 5, 7 and 8). -/
inductive Input where
  /-- The host offers a command word on the command channel (30_encoding.md R60). -/
  | command (cw : CommandWord)
  /-- The host attaches a destination that holds these words, between commands: another buffer, or the same one after
  the host has itself written to it. Destinations are unrelated unless the host makes them the same (20_memory.md R40):
  it does so by leaving one attached, or by attaching its contents again. -/
  | attach (contents : List (Nat × Word))
  /-- Reset, with no command in progress (70_reset_and_hazards.md R170). -/
  | reset
  /-- The host offers a command word and reset strikes before its response (70_reset_and_hazards.md R184), when at most
  `j` of the command's destination writes have been performed. -/
  | commandCutByReset (cw : CommandWord) (j : Nat)
deriving DecidableEq, Repr

/-- A transfer that has taken place on one of the three channels (30_encoding.md R60). -/
inductive Transfer where
  /-- Command channel: the block accepted `cw`. -/
  | command (cw : CommandWord)
  /-- Destination-write channel: `DstWrite(k, w)` (30_encoding.md R74). -/
  | dstWrite (k : Nat) (w : Word)
  /-- Response channel: the accepted command has completed (30_encoding.md R68). -/
  | response (rsp : ResponseWord)
deriving DecidableEq, Repr

/-- The four ways a command completes (30_encoding.md R68). -/
inductive Response where
  | ok
  | insufficientSeed
  | notSeeded
  | illegalCommand
deriving DecidableEq, Repr

/-- A destination space (20_memory.md R40): pairs of a word index and the 64-bit word that stands there, indices strictly
rising. An index that is not listed holds no word the block or the host is known to have put there. The unit is the word: the block has no
byte-addressable view of anything (20_memory.md R43; log entry 5). -/
abbrev Memory := List (Nat × Word)

/-- The state. `seeded`, `lanes` and `cur` are all the state the block has (10_state.md R30); `ghost` is R31's ghost
state; `inputs`, `dst` and `traffic` are the block's boundary: what is offered to it, the destination the host has
attached, and what has passed on its channels. -/
structure State where
  /-- The seeded flag (10_state.md R27). -/
  seeded : Bool
  /-- LaneState `s[0..N-1]` (10_state.md R20). -/
  lanes : Lanes
  /-- The StreamCursor, next word first; `cur_cnt` is its length (10_state.md R24, R25). -/
  cur : List Word
  /-- The ghosts `S0`, `rounds`, `delivered`; `none` while they are undefined (10_state.md R31, R34). -/
  ghost : Option Ghost
  /-- What the host does next, first entry first (log entry 7). -/
  inputs : List Input
  /-- The destination the host has attached to the destination-write channel (20_memory.md R40). -/
  dst : Memory
  /-- Every transfer so far, oldest first (log entry 6). -/
  traffic : List Transfer
deriving DecidableEq, Repr

/-- The reasons a step stops the machine. An error response is none of them: a command that fails completes, in a next
state (60_exceptions.md R150). -/
inductive Fault where
  /-- Raised by FILL (`fillOn`) where `seeded` is set and the lanes are not `N` held words. Safe: 93_implementation_defined.md U9
  calls such a read a fault of the model, and no state that keeps the invariant `State.Inv` has it. -/
  | laneHoldsNoValue
deriving DecidableEq, Repr

/-- The reasons the model gives an instruction no meaning. -/
inductive Refusal where
  /-- Raised by `exec` for an instruction that has no meaning yet; no arm does. Safe: the machine stops. -/
  | notModelled (mnemonic : String)
deriving DecidableEq, Repr

/-- The block right after reset (10_state.md R34, 70_reset_and_hazards.md R170), nothing offered, nothing transferred. -/
def State.reset : State where
  seeded := false
  lanes := .noValue
  cur := []
  ghost := none
  inputs := []
  dst := []
  traffic := []

end Sys2Proof.Machine
end

