-- ==== Sys2Proof/Machine/Flags.lean ====
section
/-! DEFINITION. The block's one flag, `seeded`. No operation produces a carry, overflow, zero or sign flag (10_state.md
R27, 41_round_engine.md R108), so there is no other flag computation. -/

namespace Sys2Proof.Machine

/-- Write the seeded flag (10_state.md R27). -/
def State.setSeeded (v : Bool) (s : State) : State := { s with seeded := v }

end Sys2Proof.Machine
end

