-- ==== Sys2Proof/Machine/Ops.lean ====
section
/-! DEFINITION. The shared operations over the state: the destination memory, the updates of single fields, `DstWrite`,
completing a command (`respond`), ending it in an error (`raise`), and unmaking a Generator. -/

namespace Sys2Proof.Machine

/-- The canonical form of a destination memory: word indices strictly rising. (An unlisted index has no word, so no
entry can equal what an unlisted index reads as.) -/
abbrev Memory.wf (m : Memory) : Prop := m.Pairwise (fun x y => x.1 < y.1)

/-- The word the block has written at index `k`, if any. The host's reading: the block itself never reads the
destination (20_memory.md R41). -/
def Memory.read (k : Nat) : Memory → Option Word
  | [] => none
  | (i, v) :: m => if i = k then some v else Memory.read k m

/-- The memory with `w` at index `k`. -/
def Memory.write (k : Nat) (w : Word) : Memory → Memory
  | [] => [(k, w)]
  | (i, v) :: m =>
    if k < i then (k, w) :: (i, v) :: m
    else if k = i then (k, w) :: m
    else (i, v) :: Memory.write k w m

/-- The memory after writes in order. -/
def Memory.writeAll : List (Nat × Word) → Memory → Memory
  | [], m => m
  | (k, w) :: ws, m => Memory.writeAll ws (m.write k w)

/-- A memory that holds these words and no others; of two words at one index the later one. -/
def Memory.ofContents (ws : List (Nat × Word)) : Memory := Memory.writeAll ws []

/-- Replace all lanes (10_state.md R21: no operation writes a single lane alone). -/
def State.setLanes (v : Lanes) (s : State) : State := { s with lanes := v }

/-- Replace the cursor, and with it `cur_cnt` (10_state.md R24). -/
def State.setCur (q : List Word) (s : State) : State := { s with cur := q }

/-- Replace the ghosts (10_state.md R31). -/
def State.setGhost (g : Option Ghost) (s : State) : State := { s with ghost := g }

/-- Replace what the host does next. -/
def State.setInputs (l : List Input) (s : State) : State := { s with inputs := l }

/-- Replace the contents of the attached destination. -/
def State.setDst (m : Memory) (s : State) : State := { s with dst := m }

/-- The host attaches a destination with these contents; the one attached before is the host's again, and the block
keeps no pointer to it (20_memory.md R40, R42). -/
def State.attach (ws : List (Nat × Word)) (s : State) : State := s.setDst (Memory.ofContents ws)

/-- One transfer takes place on a channel (30_encoding.md R60). -/
def State.send (t : Transfer) (s : State) : State := { s with traffic := s.traffic ++ [t] }

/-- The lanes as a vector of `N` words, if they are `N` held words: the one operation that reads LaneState. -/
def State.readLanes (cfg : Config) (s : State) : Option (LaneVec cfg) :=
  match s.lanes with
  | .noValue => none
  | .held ws => if h : ws.length = cfg.N then some (fun i => ws[i.val]'(by rw [h]; exact i.isLt)) else none

/-- `s <- V`: the one operation that writes LaneState (00_scope.md section 6). -/
def State.writeLanes {cfg : Config} (v : LaneVec cfg) (s : State) : State :=
  s.setLanes (.held (List.ofFn v))

/-- The response codes (30_encoding.md R68). -/
def Response.code : Response → ResponseWord
  | .ok => 0x0
  | .insufficientSeed => 0x1
  | .notSeeded => 0x2
  | .illegalCommand => 0x3

/-- The command completes with a response code. -/
def State.respond (r : Response) (s : State) : State := s.send (.response r.code)

/-- Ending a command in an error, the one shared operation for all three (60_exceptions.md R150): the response is
given, nothing is saved, no mode changes, control goes nowhere, and no state changes (R157). There is no return from
an error and nothing to restore (R158), so no operation stands beside this one. -/
def State.raise (e : Response) (s : State) : State := s.respond e

/-- `DstWrite(k, w)` (20_memory.md R41): one transfer on the destination-write channel; the word stands in the
destination. It cannot fail. -/
def State.dstWrite (k : Nat) (w : Word) (s : State) : State :=
  (s.setDst (s.dst.write k w)).send (.dstWrite k w)

/-- Perform destination writes in the order given (20_memory.md R47; log entry 9). -/
def State.performWrites : List (Nat × Word) → State → State
  | [], s => s
  | (k, w) :: ws, s => State.performWrites ws (s.dstWrite k w)

/-- A Generator comes into being with the vector `v`: lanes written, cursor emptied, `seeded` set, ghosts restarted
(40_seed_expander.md R86). -/
def State.construct {cfg : Config} (v : LaneVec cfg) (s : State) : State :=
  (((s.writeLanes v).setCur []).setSeeded true).setGhost
    (some { s0 := List.ofFn v, rounds := 0, delivered := 0 })

/-- No Generator exists: the effect of RELEASE (43_lifecycle_commands.md R141) and of reset on the block
(70_reset_and_hazards.md R170, 10_state.md R34). -/
def State.discardGenerator (s : State) : State :=
  (((s.setSeeded false).setCur []).setLanes .noValue).setGhost none

end Sys2Proof.Machine
end

