-- ==== Sys2Proof/Machine/Channels.lean ====
section
/-! DEFINITION. The command channel, attaching a destination, and reset: what a step does with the next thing the host or the reset line does.
Written over any `run`, the function that gives a decoded command its effect, so that the block in hand and a block
built with a named configuration share it. -/

namespace Sys2Proof.Machine

/-- The block accepts a command word: one transfer on the command channel (30_encoding.md R60, R70). -/
def State.accept (cw : CommandWord) (s : State) : State := s.send (.command cw)

/-- An accepted command, from decoding to response: an illegal word raises IllegalCommand and has no other effect,
before any other check (60_exceptions.md R153, R156). -/
def runWord (run : Instr → State → Host.Outcome State Fault Refusal) (cw : CommandWord) (s : State) :
    Host.Outcome State Fault Refusal :=
  match decode cw with
  | .ok i => run i (s.accept cw)
  | .error _ => .next ((s.accept cw).raise .illegalCommand)

/-- The destination writes among some transfers, in order. -/
def writesIn : List Transfer → List (Nat × Word)
  | [] => []
  | .dstWrite k w :: ts => (k, w) :: writesIn ts
  | .command _ :: ts => writesIn ts
  | .response _ :: ts => writesIn ts

/-- Reset's effect on the block (70_reset_and_hazards.md R170): no Generator, no command in progress. Config, the host's
destination and the transfers that took place are not the block's state and stay. -/
def State.resetBlock (s : State) : State := s.discardGenerator

/-- A command abandoned by reset (70_reset_and_hazards.md R184): it is accepted, the first `j` of the writes the whole
command would perform are performed (all of them where it has fewer), no response is given, the Generator is gone. -/
def cutWord (run : Instr → State → Host.Outcome State Fault Refusal) (cw : CommandWord) (j : Nat) (s : State) :
    Host.Outcome State Fault Refusal :=
  match runWord run cw s with
  | .next t =>
    let ws := writesIn (t.traffic.drop (s.accept cw).traffic.length)
    .next ((s.accept cw).performWrites (ws.take j)).resetBlock
  | .fault f => .fault f
  | .refused r => .refused r

/-- One step: the block takes the first of the inputs. With none, it is idle, which has no architectural meaning
(60_exceptions.md R164). -/
def stepWith (run : Instr → State → Host.Outcome State Fault Refusal) (s : State) :
    Host.Outcome State Fault Refusal :=
  match s.inputs with
  | [] => .next s
  | .command cw :: rest => runWord run cw (s.setInputs rest)
  | .attach ws :: rest => .next ((s.setInputs rest).attach ws)
  | .reset :: rest => .next (s.setInputs rest).resetBlock
  | .commandCutByReset cw j :: rest => cutWord run cw j (s.setInputs rest)

/-- The host offers `cw` before anything else it offers. -/
def State.offer (cw : CommandWord) (s : State) : State := s.setInputs (.command cw :: s.inputs)

end Sys2Proof.Machine
end

