-- ==== Sys2Proof/Machine/RoundEngine.lean ====
section
/-! DEFINITION. The RoundEngine (41_round_engine.md): the lane update, the R+ combination, the round, and the canonical
stream they give. It has no command of its own (R112). -/

namespace Sys2Proof.Machine

/-- `XsLane(x)` (41_round_engine.md R101): left by `a`, right by `b`, left by `c`, each on the result before. -/
def xsLane (cfg : Config) (x : Word) : Word :=
  let x1 := x ^^^ (x <<< cfg.a)
  let x2 := x1 ^^^ (x1 >>> cfg.b)
  x2 ^^^ (x2 <<< cfg.c)

/-- `XsVec(V)` (41_round_engine.md R103): every lane on its own (R102). -/
def xsVec (cfg : Config) (v : LaneVec cfg) : LaneVec cfg := fun i => xsLane cfg (v i)

/-- The partner of lane `i`, lane `(i + R) mod N` (41_round_engine.md R114). -/
def partner (cfg : Config) (i : Fin cfg.N) : Fin cfg.N :=
  ⟨(i.val + cfg.R) % cfg.N, Nat.mod_lt _ cfg.N_pos⟩

/-- `Combine(V)` (41_round_engine.md R105): wrapping addition of two lanes, the carry dropped (R108). -/
def combine (cfg : Config) (v : LaneVec cfg) : LaneVec cfg := fun i => v i + v (partner cfg i)

/-- `Round(V)` (41_round_engine.md R104): the new state, and the outputs made from the NEW state (R115). -/
def roundOf (cfg : Config) (v : LaneVec cfg) : LaneVec cfg × LaneVec cfg :=
  (xsVec cfg v, combine cfg (xsVec cfg v))

/-- `XsVec` applied `r` times (10_state.md R31). -/
def xsVecIter (cfg : Config) : Nat → LaneVec cfg → LaneVec cfg
  | 0, v => v
  | r + 1, v => xsVec cfg (xsVecIter cfg r v)

/-- `Stream(S0, k)` (42_fill_stream_cursor.md R128): output `k mod N` of round `k div N + 1`. -/
def stream (cfg : Config) (s0 : LaneVec cfg) (k : Nat) : Word :=
  combine cfg (xsVecIter cfg (k / cfg.N + 1) s0) ⟨k % cfg.N, Nat.mod_lt _ cfg.N_pos⟩

end Sys2Proof.Machine
end

