-- ==== Sys2Proof/Machine/Fill.lean ====
section
/-! DEFINITION. The FILL command: the source's BufferFiller as the three phases of 42_fill_stream_cursor.md R122. -/

namespace Sys2Proof.Machine

/-- The working state of a FILL, which is not architectural (10_state.md R30). -/
structure FillRun (cfg : Config) where
  /-- LaneState. -/
  lanes : LaneVec cfg
  /-- The StreamCursor. -/
  cur : List Word
  /-- `d`, the index of the next word to write. -/
  d : Nat
  /-- `rem`, the number of words still to write. -/
  rem : Nat
  /-- The destination writes so far, in order. -/
  writes : List (Nat × Word)
  /-- Rounds run by this FILL. -/
  rounds : Nat

/-- Words at consecutive destination indices from `d` on. -/
def placeAt (d : Nat) : List Word → List (Nat × Word)
  | [] => []
  | w :: ws => (d, w) :: placeAt (d + 1) ws

/-- `RoundStep()` without its result (41_round_engine.md R104): the lanes advance by exactly one round (R106). -/
def FillRun.roundStep {cfg : Config} (r : FillRun cfg) : FillRun cfg :=
  { r with lanes := xsVec cfg r.lanes, rounds := r.rounds + 1 }

/-- The `N` output words of the round just run, in lane order (41_round_engine.md R104). -/
def FillRun.outputs {cfg : Config} (r : FillRun cfg) : List Word := List.ofFn (combine cfg r.lanes)

/-- `DstWrite(d, ·)`, `DstWrite(d+1, ·)`, ... for the given words; `d` and `rem` move on by their number. -/
def FillRun.deliver {cfg : Config} (ws : List Word) (r : FillRun cfg) : FillRun cfg :=
  { r with writes := r.writes ++ placeAt r.d ws, d := r.d + ws.length, rem := r.rem - ws.length }

/-- Phase 1 (42_fill_stream_cursor.md R123): as many held words as fit, oldest first. -/
def drainCursor {cfg : Config} (r : FillRun cfg) : FillRun cfg :=
  let m := min r.cur.length r.rem
  { r.deliver (r.cur.take m) with cur := r.cur.drop m }

/-- One pass of phase 2 (42_fill_stream_cursor.md R124): one round, all `N` outputs to the destination. -/
def bulkPass {cfg : Config} (r : FillRun cfg) : FillRun cfg :=
  let r1 := r.roundStep
  r1.deliver r1.outputs

/-- `n` passes of phase 2. -/
def bulkPasses {cfg : Config} : Nat → FillRun cfg → FillRun cfg
  | 0, r => r
  | n + 1, r => bulkPasses n (bulkPass r)

/-- Phase 2 (42_fill_stream_cursor.md R124): `while rem >= N`, which is `floor(rem / N)` passes. -/
def bulkRounds {cfg : Config} (r : FillRun cfg) : FillRun cfg := bulkPasses (r.rem / cfg.N) r

/-- Phase 3 (42_fill_stream_cursor.md R125): one partial round, its unused suffix kept in the cursor. -/
def partialTail {cfg : Config} (r : FillRun cfg) : FillRun cfg :=
  if r.rem = 0 then r
  else
    let r1 := r.roundStep
    { r1.deliver (r1.outputs.take r.rem) with cur := r1.outputs.drop r.rem }

/-- `Fill(L)` (42_fill_stream_cursor.md R122). -/
def fillRun (cfg : Config) (len : Nat) (v : LaneVec cfg) (cur : List Word) : FillRun cfg :=
  partialTail (bulkRounds (drainCursor
    { lanes := v, cur := cur, d := 0, rem := len, writes := [], rounds := 0 }))

/-- The ghosts after a FILL of `len` words (42_fill_stream_cursor.md R122, 41_round_engine.md R104). -/
def Ghost.afterFill (rounds len : Nat) (g : Ghost) : Ghost :=
  { g with rounds := g.rounds + rounds, delivered := g.delivered + len }

/-- The effect of a finished `Fill(len)` on the state: lanes, cursor, ghosts, and the destination writes in order. -/
def State.commitFill {cfg : Config} (len : Nat) (r : FillRun cfg) (s : State) : State :=
  (((s.writeLanes r.lanes).setCur r.cur).setGhost (s.ghost.map (Ghost.afterFill r.rounds len))).performWrites r.writes

/-- FILL on a block built with `cfg` (42_fill_stream_cursor.md R121): NotSeeded while `seeded = 0`, whatever `len` is
(60_exceptions.md R152); otherwise `Fill(len)` and then OK, for every `len` (R134). Lanes that are not `N` held words
under a set flag stop the machine (93_implementation_defined.md U9; log entry 4). -/
def fillOn (cfg : Config) (len : Nat) (s : State) : Host.Outcome State Fault Refusal :=
  if s.seeded then
    match s.readLanes cfg with
    | some v => .next ((s.commitFill len (fillRun cfg len v s.cur)).respond .ok)
    | none => .fault .laneHoldsNoValue
  else .next (s.raise .notSeeded)

/-- FILL on the block in hand. -/
def execFill (len : Nat) (s : State) : Host.Outcome State Fault Refusal :=
  fillOn Config.block len s

end Sys2Proof.Machine
end

