-- ==== Sys2Proof/Machine/Lifecycle.lean ====
section
/-! DEFINITION. The commands without operand: NOP and RELEASE (43_lifecycle_commands.md). -/

namespace Sys2Proof.Machine

/-- NOP (43_lifecycle_commands.md R140): responds OK and changes nothing. -/
def execNop (s : State) : Host.Outcome State Fault Refusal :=
  .next (s.respond .ok)

/-- RELEASE (43_lifecycle_commands.md R141): the Generator is discarded, then OK; never fails (R143). -/
def execRelease (s : State) : Host.Outcome State Fault Refusal :=
  .next (s.discardGenerator.respond .ok)

end Sys2Proof.Machine
end

