-- ==== Sys2Proof/Machine/Operands.lean ====
section
/-! DEFINITION. What the operands of commands mean, and the pseudo-commands, which are operand forms of SEED and FILL. -/

namespace Sys2Proof.Machine

/-- Enough seed material is declared: at least 64 bits (40_seed_expander.md R81, R87). -/
def seedSufficient (slen : Nat) : Bool := decide (64 ≤ slen)

/-- `NEW seed`, which expands to `SEED 64, seed` (30_encoding.md R72). -/
def newCommand (seed : Word) : Instr := .seed 64 seed

/-- `NEXT`, which expands to `FILL 1` (30_encoding.md R72). -/
def nextCommand : Instr := .fill 1

end Sys2Proof.Machine
end

