-- ==== Sys2Proof/Machine/SeedExpander.lean ====
section
/-! DEFINITION. The SeedExpander and the SEED command (40_seed_expander.md). -/

namespace Sys2Proof.Machine

/-- The vector before the all-zero test: `V[i] = Mix(seed ^ LaneConst(i))` (40_seed_expander.md R84). -/
def mixLanes (cfg : Config) (seed : Word) : LaneVec cfg := fun i => cfg.mix (seed ^^^ cfg.laneConst i)

/-- Every lane is zero: the test is on the whole vector (40_seed_expander.md R84, R90). -/
abbrev AllZero {cfg : Config} (v : LaneVec cfg) : Prop := ∀ i, v i = 0

/-- `Expand(seed)` (40_seed_expander.md R84), the all-zero result replaced by `Fallback` (R85). -/
def expand (cfg : Config) (seed : Word) : LaneVec cfg :=
  if AllZero (mixLanes cfg seed) then cfg.fallback else mixLanes cfg seed

/-- SEED on a block built with `cfg` (40_seed_expander.md R86): fewer than 64 declared bits raise InsufficientSeed and
change nothing (R87); otherwise a new Generator replaces whatever the block held (R89). -/
def seedOn (cfg : Config) (slen : Nat) (seed : Word) (s : State) : Host.Outcome State Fault Refusal :=
  if seedSufficient slen then .next ((s.construct (expand cfg seed)).respond .ok)
  else .next (s.raise .insufficientSeed)

/-- SEED on the block in hand. -/
def execSeed (slen : Nat) (seed : Word) (s : State) : Host.Outcome State Fault Refusal :=
  seedOn Config.block slen seed s

end Sys2Proof.Machine
end

