-- ==== Sys2Proof/Machine/Dispatch.lean ====
section
/-! DEFINITION. One arm per command. -/

namespace Sys2Proof.Machine

def exec (i : Instr) (s : State) : Host.Outcome State Fault Refusal :=
  match i with
  | .nop => Sys2Proof.Machine.execNop s
  | .seed slen seed => Sys2Proof.Machine.execSeed slen seed s
  | .fill len => Sys2Proof.Machine.execFill len s
  | .release => Sys2Proof.Machine.execRelease s

end Sys2Proof.Machine
end

