-- ==== Sys2Proof/Machine/Step.lean ====
section
/-! DEFINITION. The step of the block in hand, and placing a command where the next step takes it. -/

namespace Sys2Proof.Machine

/-- One step: the next thing the host or the reset line does, taken whole (30_encoding.md R70). -/
def step (s : State) : Host.Outcome State Fault Refusal := stepWith exec s

/-- `s` with the command of the table's word `w` offered next on the command channel (log entry 7). -/
def State.withFetchWord (s : State) (nbits w : Nat) : State := s.offer (BitVec.ofNat 80 (w % 2 ^ nbits))

end Sys2Proof.Machine
end

