-- ==== Sys2Proof/Machine/Instances.lean ====
section
/-! DEFINITION. Any instance of the block: the commands and the step of a block built with a named configuration
(60_exceptions.md R162, 10_state.md R29). The reference configurations are run through these. -/

namespace Sys2Proof.Machine

/-- The commands on a block built with `cfg`. -/
def execOn (cfg : Config) (i : Instr) (s : State) : Host.Outcome State Fault Refusal :=
  match i with
  | .nop => execNop s
  | .seed slen seed => seedOn cfg slen seed s
  | .fill len => fillOn cfg len s
  | .release => execRelease s

/-- One step of a block built with `cfg`. -/
def stepOn (cfg : Config) (s : State) : Host.Outcome State Fault Refusal := stepWith (execOn cfg) s

end Sys2Proof.Machine
end

