-- ==== Sys2Proof/Machine/Text.lean ====
section
/-! DEFINITION. The textual form of commands (30_encoding.md R71) and the pseudo-commands' names (R72), on lists of
characters: one command a line, mnemonic in capitals, operands separated by a comma, numbers in decimal or `0x`
hexadecimal with underscores as separators (00_scope.md section 6), `;` starting a comment. -/

namespace Sys2Proof.Machine

/-- The value of a digit, `0..9`, `a..f` or `A..F`. -/
def digitValue (ch : Char) : Option Nat :=
  if '0' ≤ ch ∧ ch ≤ '9' then some (ch.toNat - 48)
  else if 'a' ≤ ch ∧ ch ≤ 'f' then some (ch.toNat - 87)
  else if 'A' ≤ ch ∧ ch ≤ 'F' then some (ch.toNat - 55)
  else none

/-- Digits in a base, most significant first, after the value read so far; underscores are skipped. -/
def readDigits (base : Nat) : Nat → List Char → Option Nat
  | n, [] => some n
  | n, ch :: cs =>
    if ch = '_' then readDigits base n cs
    else match digitValue ch with
      | some v => if v < base then readDigits base (n * base + v) cs else none
      | none => none

/-- A literal: `0x` and hexadecimal digits, or decimal digits; at least one digit, which comes first. -/
def readLiteral (cs : List Char) : Option Nat :=
  match cs with
  | '0' :: 'x' :: ch :: ds => if ch = '_' then none else readDigits 16 0 (ch :: ds)
  | ch :: ds => if ch = '_' then none else readDigits 10 0 (ch :: ds)
  | [] => none

/-- The characters of one token, if there are any. -/
def flushToken (tok : List Char) : List (List Char) := if tok = [] then [] else [tok]

/-- The tokens of a line: blanks separate, a comma is a token of its own, a semicolon ends the line. -/
def tokensFrom (tok : List Char) : List Char → List (List Char)
  | [] => flushToken tok
  | ch :: cs =>
    if ch = ';' then flushToken tok
    else if ch = ' ' ∨ ch = '\t' then flushToken tok ++ tokensFrom [] cs
    else if ch = ',' then flushToken tok ++ [','] :: tokensFrom [] cs
    else tokensFrom (tok ++ [ch]) cs

/-- The names of commands and pseudo-commands. -/
def nopName : List Char := ['N', 'O', 'P']
/-- See `nopName`. -/
def seedName : List Char := ['S', 'E', 'E', 'D']
/-- See `nopName`. -/
def fillName : List Char := ['F', 'I', 'L', 'L']
/-- See `nopName`. -/
def releaseName : List Char := ['R', 'E', 'L', 'E', 'A', 'S', 'E']
/-- See `nopName`. -/
def newName : List Char := ['N', 'E', 'W']
/-- See `nopName`. -/
def nextName : List Char := ['N', 'E', 'X', 'T']

/-- A 64-bit literal. -/
def readWord (cs : List Char) : Option Word :=
  match readLiteral cs with
  | some n => if n < 18446744073709551616 then some (BitVec.ofNat 64 n) else none
  | none => none

/-- `SEED`'s operands. -/
def readSeed (slen seed : List Char) : Option Instr :=
  match readLiteral slen, readWord seed with
  | some n, some w => if n < 256 then some (.seed n w) else none
  | _, _ => none

/-- `FILL`'s operand. -/
def readFill (len : List Char) : Option Instr :=
  match readLiteral len with
  | some n => if n < 18446744073709551616 then some (.fill n) else none
  | none => none

/-- The command a line of tokens stands for (30_encoding.md R71, R72). -/
def readTokens (toks : List (List Char)) : Option Instr :=
  match toks with
  | [m] =>
    if m = nopName then some .nop
    else if m = releaseName then some .release
    else if m = nextName then some nextCommand
    else none
  | [m, x] =>
    if m = fillName then readFill x
    else if m = newName then (readWord x).map newCommand
    else none
  | [m, x, comma, y] => if m = seedName ∧ comma = [','] then readSeed x y else none
  | _ => none

/-- The command a line of text stands for. -/
def readText (line : List Char) : Option Instr := readTokens (tokensFrom [] line)

/-- The decimal digits of a natural, at most `fuel` of them, before the digits given. -/
def decimalFrom : Nat → Nat → List Char → List Char
  | 0, _, cs => cs
  | fuel + 1, n, cs =>
    let ds := Char.ofNat (48 + n % 10) :: cs
    if n < 10 then ds else decimalFrom fuel (n / 10) ds

/-- A natural in decimal. -/
def writeDecimal (n : Nat) : List Char := decimalFrom (n + 1) n []

/-- The text of a command (30_encoding.md R71), numbers in decimal. -/
def writeText : Instr → List Char
  | .nop => nopName
  | .seed slen seed => seedName ++ ' ' :: (writeDecimal slen ++ ',' :: ' ' :: writeDecimal seed.toNat)
  | .fill len => fillName ++ ' ' :: writeDecimal len
  | .release => releaseName

end Sys2Proof.Machine
end

