-- ==== Sys2Proof/Safety.lean ====
section
/-! DEFINITION. What counts as a good state of the block, and the terms the statements use: how a seeded state stands
to its stream, what a step has written, and how a command must answer. -/

namespace Sys2Proof.Machine

/-- A seeded state stands at position `p` of the stream of `seed`, after `r` rounds: the invariants of 10_state.md R31
(`s = XsVec^rounds(S0)`, `delivered = N * rounds - cur_cnt`, `cur[j] = Stream(S0, delivered + j)`) and the bound of R24. -/
structure Tracks (cfg : Config) (s : State) (seed : Word) (r p : Nat) : Prop where
  seeded : s.seeded = true
  lanes : s.lanes = .held (List.ofFn (xsVecIter cfg r (expand cfg seed)))
  ghost : s.ghost = some { s0 := List.ofFn (expand cfg seed), rounds := r, delivered := p }
  count : p + s.cur.length = cfg.N * r
  bound : s.cur.length < cfg.N
  words : s.cur = (List.range s.cur.length).map (fun j => stream cfg (expand cfg seed) (p + j))

/-- The invariant of the block built with `cfg`: the destination memory is in its canonical form; without a Generator
nothing is held (10_state.md R33, R34); with one, the state stands at some position of some seed's stream (R27, R31). -/
structure State.Inv (cfg : Config) (s : State) : Prop where
  dst : s.dst.wf
  unseeded : s.seeded = false → s.lanes = .noValue ∧ s.cur = [] ∧ s.ghost = none
  seeded : s.seeded = true → ∃ seed r p, Tracks cfg s seed r p

/-- The block holds a Generator whose lanes can be read: `seeded` is set and the lanes are the `N` words `v`. -/
structure Ready (cfg : Config) (s : State) (v : LaneVec cfg) : Prop where
  seeded : s.seeded = true
  lanes : s.lanes = .held (List.ofFn v)

/-- Least natural `q` with `q * n >= x`, for `n > 0` (00_scope.md section 6). -/
def ceilDiv (x n : Nat) : Nat := (x + n - 1) / n

/-- The rounds a FILL of `len` words runs when `c` words are held (42_fill_stream_cursor.md R133). -/
def roundsNeeded (cfg : Config) (c len : Nat) : Nat := if len ≤ c then 0 else ceilDiv (len - c) cfg.N

/-- The outputs of the next `n` rounds from the vector `v`, one after the other. -/
def outputsOf (cfg : Config) : Nat → LaneVec cfg → List Word
  | 0, _ => []
  | n + 1, v => List.ofFn (combine cfg (xsVec cfg v)) ++ outputsOf cfg n (xsVec cfg v)

/-- `DstWrite(k, Stream(S0, p + k))` for `k = 0, 1, ..., len - 1` (42_fill_stream_cursor.md R130). -/
def streamWrites (cfg : Config) (s0 : LaneVec cfg) (p len : Nat) : List (Nat × Word) :=
  (List.range len).map (fun k => (k, stream cfg s0 (p + k)))

/-- The transfers of destination writes. -/
def asTransfers (ws : List (Nat × Word)) : List Transfer := ws.map (fun x => .dstWrite x.1 x.2)

/-- The destination writes between a state and a later one. -/
def newWrites (s t : State) : List (Nat × Word) := writesIn (t.traffic.drop s.traffic.length)

/-- The words of the destination writes between a state and a later one. -/
def newWords (s t : State) : List Word := (newWrites s t).map Prod.snd

/-- How an accepted command word must be answered (60_exceptions.md R154, R156; 43_lifecycle_commands.md R142). -/
def responseTo (cw : CommandWord) (seeded : Bool) : Response :=
  match decode cw with
  | .error _ => .illegalCommand
  | .ok .nop => .ok
  | .ok (.seed slen _) => if slen < 64 then .insufficientSeed else .ok
  | .ok (.fill _) => if seeded then .ok else .notSeeded
  | .ok .release => .ok

/-- How many destination writes an accepted command word performs (20_memory.md R45). -/
def writeCountOf (cw : CommandWord) (seeded : Bool) : Nat :=
  match decode cw with
  | .ok (.fill len) => if seeded then len else 0
  | .ok .nop => 0
  | .ok (.seed _ _) => 0
  | .ok .release => 0
  | .error _ => 0

/-- One command after another, `n` times the same. -/
def repeatExec (i : Instr) : Nat → State → Host.Outcome State Fault Refusal
  | 0, s => .next s
  | n + 1, s =>
    match exec i s with
    | .next t => repeatExec i n t
    | .fault f => .fault f
    | .refused r => .refused r

/-- The state without its ghosts. -/
def State.eraseGhost (s : State) : State := s.setGhost none

/-- An outcome without its ghosts. -/
def eraseGhostOutcome : Host.Outcome State Fault Refusal → Host.Outcome State Fault Refusal
  | .next t => .next t.eraseGhost
  | .fault f => .fault f
  | .refused r => .refused r

end Sys2Proof.Machine
end

