-- ==== Sys2Proof/Certificates/Slice0/Obligations.lean ====
section
/-! DEFINITION. The statements for the provers, from the numbered rules of spec/. `Config.block` is an uninterpreted
configuration (log entry 1), so a statement about it holds for every one. -/

open Sys2Proof Sys2Proof.Machine

/-! Encoding (30_encoding.md). -/

/-- 30_encoding.md R61 to R66, R71: encoding loses no operand bit of any well-formed command. -/
def Obligations.DecodeOfEncodeIsIdentity : Prop :=
  ∀ i : Instr, i.WellFormed → decode (encode i) = .ok i

/-- 30_encoding.md R69: every legal word is the word of exactly the command it decodes to, so no word has two meanings
and no command has two words. -/
def Obligations.EncodeOfDecodeIsIdentity : Prop :=
  ∀ (cw : CommandWord) (i : Instr), decode cw = .ok i → i.WellFormed ∧ encode i = cw

/-- 30_encoding.md R67, 60_exceptions.md R153, with the fields as digits of the word's value: (a) to (d) are the illegal
words, an illegal word is answered with IllegalCommand and has no other effect, and the only word of NOP is zero (no hint
encodings). -/
def Obligations.IllegalWordsAreThoseOfR67 : Prop :=
  ∀ cw : CommandWord,
    ((∃ e, decode cw = .error e) ↔
      (4 ≤ cw.toNat % 16 ∨
        cw.toNat / 16 % 16 ≠ 0 ∨
        ((cw.toNat % 16 = 0 ∨ cw.toNat % 16 = 2 ∨ cw.toNat % 16 = 3) ∧ cw.toNat / 256 % 256 ≠ 0) ∨
        ((cw.toNat % 16 = 0 ∨ cw.toNat % 16 = 3) ∧ cw.toNat / 65536 ≠ 0))) ∧
    (∀ (s : State) (rest : List Input), (∃ e, decode cw = .error e) → s.inputs = .command cw :: rest →
      step s = .next { s with inputs := rest, traffic := s.traffic ++ [.command cw, .response 0x3] }) ∧
    (decode cw = .ok .nop ↔ cw = 0)

/-- 30_encoding.md R63, R64, R65, R66 and spec/opcode_table.json: a word matches a row under its mask exactly where it
decodes to that row's command, with the operands taken as they stand. -/
def Obligations.TableRowsMatchUnderMask : Prop :=
  ∀ cw : CommandWord,
    (decode cw = .ok .nop ↔ cw &&& 0xFFFFFFFFFFFFFFFFFFFF = 0x00000000000000000000) ∧
    (decode cw = .ok .release ↔ cw &&& 0xFFFFFFFFFFFFFFFFFFFF = 0x00000000000000000003) ∧
    (∀ slen seed, decode cw = .ok (.seed slen seed) ↔
      cw &&& 0xFF = 0x01 ∧ slen = cw.toNat / 256 % 256 ∧ seed = BitVec.ofNat 64 (cw.toNat / 65536)) ∧
    (∀ len, decode cw = .ok (.fill len) ↔ cw &&& 0xFFFF = 0x0002 ∧ len = cw.toNat / 65536)

/-- 30_encoding.md R73, all eleven rows of its table. -/
def Obligations.WorkedWordsDecode : Prop :=
  decode 0x00000000000000000000 = .ok .nop ∧ encode .nop = 0x00000000000000000000 ∧
  decode 0x0123456789ABCDEF4001 = .ok (newCommand 0x0123456789ABCDEF) ∧
  encode (.seed 64 0x0123456789ABCDEF) = 0x0123456789ABCDEF4001 ∧
  decode 0x00000000DEADBEEF2001 = .ok (.seed 32 0x00000000DEADBEEF) ∧
  encode (.seed 32 0x00000000DEADBEEF) = 0x00000000DEADBEEF2001 ∧
  decode 0x00000000000000000002 = .ok (.fill 0) ∧ encode (.fill 0) = 0x00000000000000000002 ∧
  decode 0x00000000000000080002 = .ok (.fill 8) ∧ encode (.fill 8) = 0x00000000000000080002 ∧
  decode 0x000000000000000C0002 = .ok (.fill 12) ∧ encode (.fill 12) = 0x000000000000000C0002 ∧
  decode 0x00000000000000000003 = .ok .release ∧ encode .release = 0x00000000000000000003 ∧
  decode 0x00000000000000000004 = .error .reservedOp ∧
  decode 0x00000000000000080012 = .error .rsvNotZero ∧
  decode 0x00000000000000080102 = .error .slenNotZero ∧
  decode 0x00000000000000010000 = .error .argNotZero

/-- 30_encoding.md R71: the text written for a well-formed command reads back as that command. -/
def Obligations.TextReadsBack : Prop :=
  ∀ i : Instr, i.WellFormed → readText (writeText i) = some i

/-! Steps, the channels and reset. -/

/-- 30_encoding.md R70, R69: a step takes the offered word off the inputs, records its transfer, and is `exec` of the
command the word decodes to. -/
def Obligations.StepRunsDecodedCommand : Prop :=
  ∀ (s : State) (cw : CommandWord) (rest : List Input) (i : Instr),
    s.inputs = .command cw :: rest → decode cw = .ok i →
      step s = exec i { s with inputs := rest, traffic := s.traffic ++ [.command cw] }

/-- Log entry 7 (the model's choice, from 60_exceptions.md R164): with nothing offered, a step changes nothing. -/
def Obligations.IdleStepChangesNothing : Prop :=
  ∀ s : State, s.inputs = [] → step s = .next s

/-- 10_state.md R34: what is held right after reset, that the block is ready to accept a command, whichever it is, and
the ghosts that the first successful SEED sets. (Config is no part of the state.) -/
def Obligations.ResetStateHoldsNoGenerator : Prop :=
  State.reset.seeded = false ∧ State.reset.cur.length = 0 ∧ State.reset.lanes = .noValue ∧ State.reset.ghost = none ∧
  (∀ cw : CommandWord, ∃ t rsp, step (State.reset.setInputs [.command cw]) = .next t ∧
    t.traffic = [.command cw, .response rsp]) ∧
  ∀ (slen : Nat) (seed : Word), 64 ≤ slen → ∃ t, exec (.seed slen seed) State.reset = .next t ∧
    t.ghost = some { s0 := List.ofFn (expand Config.block seed), rounds := 0, delivered := 0 }

/-- 70_reset_and_hazards.md R170: reset, between commands or during one, leaves the block in the state of R34. -/
def Obligations.ResetEventUnmakesGenerator : Prop :=
  (∀ (s : State) (rest : List Input), s.inputs = .reset :: rest →
    step s = .next { s with inputs := rest, seeded := false, lanes := .noValue, cur := [], ghost := none }) ∧
  (∀ (s t : State) (cw : CommandWord) (j : Nat) (rest : List Input),
    s.inputs = .commandCutByReset cw j :: rest → step s = .next t →
      t.seeded = false ∧ t.lanes = .noValue ∧ t.cur = [] ∧ t.ghost = none ∧ t.inputs = rest)

/-- 70_reset_and_hazards.md R184: a command cut by reset gets no response; of the writes it would have performed a prefix
has been performed, stream words all of them; the Generator is gone. A command that is not cut is answered. Log entry 8
(the model's choice): the prefix has `min j` of the writes, and the destination keeps its old words beyond it, where R184
has the host treat the destination as undefined. -/
def Obligations.ResetDuringCommandLeavesPrefix : Prop :=
  (∀ (s : State) (cw : CommandWord) (j : Nat) (rest : List Input),
    s.Inv Config.block → s.inputs = .commandCutByReset cw j :: rest →
      ∃ ws, step s = .next { s with
          inputs := rest, seeded := false, lanes := .noValue, cur := [], ghost := none,
          dst := s.dst.writeAll ws,
          traffic := s.traffic ++ [.command cw] ++ asTransfers ws } ∧
        ws.length = min j (writeCountOf cw s.seeded) ∧
        ∀ seed r p, Tracks Config.block s seed r p →
          ws = streamWrites Config.block (expand Config.block seed) p ws.length) ∧
  (∀ (s : State) (cw : CommandWord) (rest : List Input),
    s.Inv Config.block → s.inputs = .command cw :: rest →
      ∃ t rsp, step s = .next t ∧ t.traffic.getLast? = some (.response rsp))

/-- 30_encoding.md R70, 60_exceptions.md R154, R156: every offered command is answered by exactly one response, after its
destination writes, with the code the order of checks gives; it is always answered. -/
def Obligations.EveryCommandIsAnsweredOnce : Prop :=
  ∀ (s : State) (cw : CommandWord) (rest : List Input),
    s.Inv Config.block → s.inputs = .command cw :: rest →
      ∃ t ws, step s = .next t ∧ t.inputs = rest ∧
        t.traffic = s.traffic ++ [.command cw] ++ asTransfers ws ++ [.response (responseTo cw s.seeded).code] ∧
        ws.length = writeCountOf cw s.seeded

/-- 60_exceptions.md R157: a command that ends in an error has no effect but its response. -/
def Obligations.ErrorsChangeNothing : Prop :=
  ∀ (s : State) (cw : CommandWord) (rest : List Input),
    s.inputs = .command cw :: rest → responseTo cw s.seeded ≠ .ok →
      step s = .next { s with
        inputs := rest, traffic := s.traffic ++ [.command cw, .response (responseTo cw s.seeded).code] }

/-- 60_exceptions.md R160: a seeded block answers every legal command with OK but a SEED with `slen < 64`; that, and an
illegal word, leave the Generator intact. -/
def Obligations.SeededBlockHasTwoErrors : Prop :=
  ∀ (s : State) (cw : CommandWord) (rest : List Input),
    s.Inv Config.block → s.seeded = true → s.inputs = .command cw :: rest →
      ∃ t rsp, step s = .next t ∧ t.traffic.getLast? = some (.response rsp) ∧
        (rsp = 0x0 ∨
          (((rsp = 0x1 ∧ ∃ slen seed, slen < 64 ∧ decode cw = .ok (.seed slen seed)) ∨
              (rsp = 0x3 ∧ ∃ e, decode cw = .error e)) ∧
            t.seeded = s.seeded ∧ t.lanes = s.lanes ∧ t.cur = s.cur ∧ t.ghost = s.ghost))

/-! NOP and RELEASE (43_lifecycle_commands.md). -/

/-- 43_lifecycle_commands.md R140, in any state; the equation is also NOP's frame. The word of NOP is zero, and every
other word with `op = 0x0` is illegal. -/
def Obligations.NopOnlyRespondsOk : Prop :=
  (∀ s : State, exec .nop s = .next { s with traffic := s.traffic ++ [.response 0x0] }) ∧
  encode .nop = 0 ∧ (∀ cw : CommandWord, cw.toNat % 16 = 0 → cw ≠ 0 → ∃ e, decode cw = .error e)

/-- 43_lifecycle_commands.md R141, in any state; the equation is also RELEASE's frame. A FILL after it is refused. -/
def Obligations.ReleaseDiscardsGenerator : Prop :=
  encode .release = 0x3 ∧
  ∀ s : State, ∃ t, exec .release s = .next t ∧
    t = { s with
      seeded := false, lanes := .noValue, cur := [], ghost := none, traffic := s.traffic ++ [.response 0x0] } ∧
    t.seeded = State.reset.seeded ∧ t.lanes = State.reset.lanes ∧ t.cur = State.reset.cur ∧
    t.ghost = State.reset.ghost ∧
    ∀ len, exec (.fill len) t = .next { t with traffic := t.traffic ++ [.response 0x2] }

/-- 43_lifecycle_commands.md R143: RELEASE twice is RELEASE once, but for the second response; directly after reset, and
in every state without a Generator that keeps the invariant, it changes nothing. -/
def Obligations.ReleaseIsIdempotent : Prop :=
  (∀ s : State, ∃ t, exec .release s = .next t ∧
    exec .release t = .next { t with traffic := t.traffic ++ [.response 0x0] }) ∧
  (∀ s : State, s.Inv Config.block → s.seeded = false →
    exec .release s = .next { s with traffic := s.traffic ++ [.response 0x0] })

/-! SEED (40_seed_expander.md). -/

/-- 40_seed_expander.md R86, R87: `slen < 64` fails with no effect, anything else builds a new Generator. The equations
are also SEED's frame. Every operand has a legal encoding. -/
def Obligations.SeedBuildsGenerator : Prop :=
  ∀ (s : State) (slen : Nat) (seed : Word),
    (64 ≤ slen → exec (.seed slen seed) s = .next { s with
      seeded := true, lanes := .held (List.ofFn (expand Config.block seed)), cur := [],
      ghost := some { s0 := List.ofFn (expand Config.block seed), rounds := 0, delivered := 0 },
      traffic := s.traffic ++ [.response 0x0] }) ∧
    (slen < 64 → exec (.seed slen seed) s = .next { s with traffic := s.traffic ++ [.response 0x1] }) ∧
    (slen < 256 → decode (encode (.seed slen seed)) = .ok (.seed slen seed))

/-- 40_seed_expander.md R84, R85, for every configuration: lane by lane the mixed seed, or the fallback vector where that
would be all zero; never the all-zero vector. -/
def Obligations.ExpandIsMixOrFallback : Prop :=
  ∀ (cfg : Config) (seed : Word),
    ((∃ i, cfg.mix (seed ^^^ cfg.laneConst i) ≠ 0) →
      ∀ i, expand cfg seed i = cfg.mix (seed ^^^ cfg.laneConst i)) ∧
    ((∀ i, cfg.mix (seed ^^^ cfg.laneConst i) = 0) → expand cfg seed = cfg.fallback) ∧
    ∃ i, expand cfg seed i ≠ 0

/-- 40_seed_expander.md R89: a successful SEED gives the block the state that the same SEED gives after reset. -/
def Obligations.ReseedEqualsSeedAfterReset : Prop :=
  ∀ (s : State) (slen : Nat) (seed : Word), 64 ≤ slen →
    ∃ t u, exec (.seed slen seed) s = .next t ∧ exec (.seed slen seed) State.reset = .next u ∧
      t.seeded = u.seeded ∧ t.lanes = u.lanes ∧ t.cur = u.cur ∧ t.ghost = u.ghost

/-! The RoundEngine (41_round_engine.md), for every configuration. -/

/-- 41_round_engine.md R101: the three steps in order, each shift as arithmetic on the word's value; zero stays zero; the
worked example under REF4. -/
def Obligations.XsLaneIsThreeShiftSteps : Prop :=
  (∀ (cfg : Config) (x : Word), ∃ x1 x2 : Word,
    x1 = x ^^^ BitVec.ofNat 64 (x.toNat * 2 ^ cfg.a % 2 ^ 64) ∧
    x2 = x1 ^^^ BitVec.ofNat 64 (x1.toNat / 2 ^ cfg.b) ∧
    xsLane cfg x = x2 ^^^ BitVec.ofNat 64 (x2.toNat * 2 ^ cfg.c % 2 ^ 64)) ∧
  (∀ cfg : Config, xsLane cfg 0 = 0) ∧
  xsLane .ref4 0x8E3980323F3DCE39 = 0xCFF7E3B41A3D1BE5

/-- 41_round_engine.md R103, R105: every lane is updated on its own, and the outputs of a vector are wrapping sums of two
of its lanes at offset `R`. -/
def Obligations.VectorsActLaneByLane : Prop :=
  ∀ (cfg : Config) (v : LaneVec cfg) (i : Fin cfg.N),
    xsVec cfg v i = xsLane cfg (v i) ∧
    (combine cfg v i).toNat =
      ((v i).toNat + (v ⟨(i.val + cfg.R) % cfg.N, Nat.mod_lt _ cfg.N_pos⟩).toNat) % 2 ^ 64

/-- 41_round_engine.md R110: `XsLane` is linear and a bijection, `XsVec` is a bijection. -/
def Obligations.XsLaneIsLinearBijection : Prop :=
  ∀ cfg : Config,
    (∀ x y : Word, xsLane cfg (x ^^^ y) = xsLane cfg x ^^^ xsLane cfg y) ∧
    Function.Bijective (xsLane cfg) ∧ (∀ x : Word, xsLane cfg x = 0 → x = 0) ∧ Function.Bijective (xsVec cfg)

/-- 41_round_engine.md R109: no number of rounds leads from a seeded vector, or any other that is not all zero, to the
all-zero vector, which is a fixed point with outputs zero. -/
def Obligations.LanesNeverAllZero : Prop :=
  ∀ (cfg : Config) (r : Nat),
    (∀ v : LaneVec cfg, ¬ AllZero v → ¬ AllZero (xsVecIter cfg r v)) ∧
    (∀ seed : Word, ¬ AllZero (xsVecIter cfg r (expand cfg seed))) ∧
    (∀ v : LaneVec cfg, AllZero v → xsVec cfg v = v ∧ AllZero (combine cfg v))

/-- 41_round_engine.md R111: after any number of rounds a lane is zero exactly if it was; a zero lane leaves its two
output words to the other lane alone; an output is zero where its two lanes cancel. -/
def Obligations.ZeroLaneStaysZero : Prop :=
  ∀ (cfg : Config) (v : LaneVec cfg) (i : Fin cfg.N),
    (∀ r, xsVecIter cfg r v i = 0 ↔ v i = 0) ∧
    (v i = 0 → combine cfg v i = v (partner cfg i) ∧ ∀ j, partner cfg j = i → combine cfg v j = v j) ∧
    (v (partner cfg i) = BitVec.ofNat 64 (2 ^ 64 - (v i).toNat) → combine cfg v i = 0)

/-- 41_round_engine.md R114: the partner map is a permutation without fixed point; `N = 2` gives two equal outputs;
`R = N/2` repeats the first half. -/
def Obligations.PartnerIsFixedPointFreePermutation : Prop :=
  ∀ cfg : Config,
    (∀ i, (partner cfg i).val = (i.val + cfg.R) % cfg.N) ∧
    Function.Bijective (partner cfg) ∧ (∀ i, partner cfg i ≠ i) ∧
    (∀ (v : LaneVec cfg) (i j : Fin cfg.N),
      (cfg.N = 2 → combine cfg v i = combine cfg v j) ∧
      (cfg.N = 2 * cfg.R → j.val = i.val + cfg.R → combine cfg v i = combine cfg v j))

/-- 41_round_engine.md R115: the outputs of a round add lanes of the new state, and so, after a SEED in any state, the
first word delivered is `XsLane(S0[0]) +w XsLane(S0[R])`: the seeded vector itself is never combined into an output. -/
def Obligations.FirstWordComesFromNewState : Prop :=
  (∀ (cfg : Config) (v : LaneVec cfg) (i : Fin cfg.N),
    (roundOf cfg v).2 i = (roundOf cfg v).1 i + (roundOf cfg v).1 (partner cfg i)) ∧
  (∀ (s : State) (slen : Nat) (seed : Word) (h0 : 0 < Config.block.N) (hR : Config.block.R < Config.block.N),
    64 ≤ slen → ∃ t u, exec (.seed slen seed) s = .next t ∧ exec nextCommand t = .next u ∧
      newWrites t u = [(0, xsLane Config.block (expand Config.block seed ⟨0, h0⟩) +
        xsLane Config.block (expand Config.block seed ⟨Config.block.R, hR⟩))])

/-! FILL (42_fill_stream_cursor.md). -/

/-- 60_exceptions.md R152: without a Generator a FILL of any length is refused and has no effect; no other command is
ever answered NotSeeded. -/
def Obligations.FillWithoutGeneratorIsRefused : Prop :=
  (∀ (s : State) (len : Nat), s.seeded = false →
    exec (.fill len) s = .next { s with traffic := s.traffic ++ [.response 0x2] }) ∧
  (∀ (i : Instr) (s t : State), exec i s = .next t → t.traffic.getLast? = some (.response 0x2) →
    s.seeded = false ∧ ∃ len, i = .fill len)

/-- 93_implementation_defined.md U9, log entry 4 (the model's choice): under a set flag, lanes that are not `N` held words
stop a FILL, and FILL stops nowhere else. -/
def Obligations.FillStopsOnlyOnLanesWithoutValue : Prop :=
  ∀ (s : State) (len : Nat),
    (s.seeded = true ∧ (∀ v : LaneVec Config.block, s.lanes ≠ .held (List.ofFn v)) ↔
      exec (.fill len) s = .fault .laneHoldsNoValue)

/-- 42_fill_stream_cursor.md R121, R134, 20_memory.md R47, R48: on a block that holds a Generator a FILL of any length
completes with OK, after exactly `len` destination writes at indices `0, 1, ..., len - 1` in that order. -/
def Obligations.FillOnReadyBlockCompletes : Prop :=
  ∀ (s : State) (v : LaneVec Config.block) (len : Nat), Ready Config.block s v →
    ∃ t ws, exec (.fill len) s = .next t ∧
      t.traffic = s.traffic ++ asTransfers ws ++ [.response 0x0] ∧
      ws.map Prod.fst = List.range len ∧ t.seeded = true

/-- FILL's frame (R121, R42): the inputs and the flag stay, the ghost `S0` stays, and the destination reads as before
outside the indices below `len`. -/
def Obligations.FillFrame : Prop :=
  ∀ (s t : State) (len : Nat), exec (.fill len) s = .next t →
    t.seeded = s.seeded ∧ t.inputs = s.inputs ∧ t.ghost.map Ghost.s0 = s.ghost.map Ghost.s0 ∧
    ∀ k, len ≤ k → t.dst.read k = s.dst.read k

/-- 42_fill_stream_cursor.md R123, phase 1 as a phase and as a FILL sees it. -/
def Obligations.FillDrainsCursorFirst : Prop :=
  (∀ r : FillRun Config.block,
    (drainCursor r).writes = r.writes ++ placeAt r.d (r.cur.take (min r.cur.length r.rem)) ∧
    (drainCursor r).cur = r.cur.drop (min r.cur.length r.rem) ∧
    (r.cur.length ≤ r.rem → (drainCursor r).cur = []) ∧ (r.cur = [] → drainCursor r = r)) ∧
  (∀ (s : State) (v : LaneVec Config.block) (len : Nat), Ready Config.block s v →
    ∃ t, exec (.fill len) s = .next t ∧
      (newWrites s t).take (min s.cur.length len) = placeAt 0 (s.cur.take (min s.cur.length len)) ∧
      (len ≤ s.cur.length → t.lanes = s.lanes ∧ t.cur = s.cur.drop len ∧
        newWrites s t = placeAt 0 (s.cur.take len)))

/-- 42_fill_stream_cursor.md R124: phase 2 runs `floor(rem / N)` rounds, delivers all their outputs in lane order, and
never touches the cursor; a FILL of `q * N` words on an empty cursor is `q` such rounds. -/
def Obligations.FillBulkRoundsBypassCursor : Prop :=
  (∀ r : FillRun Config.block,
    (bulkRounds r).rounds = r.rounds + r.rem / Config.block.N ∧ (bulkRounds r).rem < Config.block.N ∧
    (bulkRounds r).lanes = xsVecIter Config.block (r.rem / Config.block.N) r.lanes ∧ (bulkRounds r).cur = r.cur ∧
    (bulkRounds r).writes = r.writes ++ placeAt r.d (outputsOf Config.block (r.rem / Config.block.N) r.lanes)) ∧
  (∀ (s : State) (v : LaneVec Config.block) (q : Nat), Ready Config.block s v → s.cur = [] →
    ∃ t, exec (.fill (q * Config.block.N)) s = .next t ∧ t.cur = [] ∧
      t.lanes = .held (List.ofFn (xsVecIter Config.block q v)) ∧
      newWrites s t = placeAt 0 (outputsOf Config.block q v))

/-- 42_fill_stream_cursor.md R125: with `0 < t < N` words left phase 3 runs one round, writes its first `t` outputs and
keeps the other `N - t`; with nothing left it does nothing. A FILL of fewer than `N` words on an empty cursor is that. -/
def Obligations.FillPartialTailKeepsSuffix : Prop :=
  (∀ r : FillRun Config.block, r.rem = 0 → partialTail r = r) ∧
  (∀ r : FillRun Config.block, 0 < r.rem → r.rem < Config.block.N →
    ∃ o, o = List.ofFn (combine Config.block (xsVec Config.block r.lanes)) ∧
      partialTail r = {
        lanes := xsVec Config.block r.lanes, cur := o.drop r.rem, d := r.d + r.rem, rem := 0,
        writes := r.writes ++ placeAt r.d (o.take r.rem), rounds := r.rounds + 1 } ∧
      (o.drop r.rem).length = Config.block.N - r.rem) ∧
  (∀ (s : State) (v : LaneVec Config.block) (len : Nat),
    Ready Config.block s v → s.cur = [] → 0 < len → len < Config.block.N →
      ∃ t, exec (.fill len) s = .next t ∧
        t.lanes = .held (List.ofFn (xsVec Config.block v)) ∧
        newWrites s t = placeAt 0 ((List.ofFn (combine Config.block (xsVec Config.block v))).take len) ∧
        t.cur = (List.ofFn (combine Config.block (xsVec Config.block v))).drop len)

/-- 42_fill_stream_cursor.md R127: `FILL 0` on a block that holds a Generator changes nothing and writes nothing; on one
that does not it is answered NotSeeded, with no change either. -/
def Obligations.FillZeroChangesNothing : Prop :=
  (∀ (s : State) (v : LaneVec Config.block), Ready Config.block s v →
    exec (.fill 0) s = .next { s with traffic := s.traffic ++ [.response 0x0] }) ∧
  (∀ s : State, s.seeded = false →
    exec (.fill 0) s = .next { s with traffic := s.traffic ++ [.response 0x2] })

/-- 42_fill_stream_cursor.md R129: continuity, from every state that holds a Generator, the writes index for index and
the state left behind. -/
def Obligations.FillIsContinuous : Prop :=
  ∀ (s : State) (v : LaneVec Config.block) (l1 l2 : Nat), Ready Config.block s v →
    ∃ t1 t2 t, exec (.fill l1) s = .next t1 ∧ exec (.fill l2) t1 = .next t2 ∧ exec (.fill (l1 + l2)) s = .next t ∧
      newWrites s t = newWrites s t1 ++ (newWrites t1 t2).map (fun x => (l1 + x.1, x.2)) ∧
      t2.lanes = t.lanes ∧ t2.cur = t.cur ∧ t2.ghost = t.ghost

/-- 42_fill_stream_cursor.md R130, R120, R128: the closed form. A FILL at stream position `p` writes the next `len` stream
words and leaves the block at position `p + len`, after `ceil((p + len) / N)` rounds. -/
def Obligations.FillClosedForm : Prop :=
  ∀ (s : State) (seed : Word) (r p len : Nat), Tracks Config.block s seed r p →
    ∃ t, exec (.fill len) s = .next t ∧
      newWrites s t = streamWrites Config.block (expand Config.block seed) p len ∧
      Tracks Config.block t seed (ceilDiv (p + len) Config.block.N) (p + len) ∧
      (len ≤ s.cur.length → ceilDiv (p + len) Config.block.N = r)

/-- 42_fill_stream_cursor.md R126: the word at index `k` is output `(p + k) mod N` of round `(p + k) div N + 1`, and the
first `cur_cnt` of them are the words the cursor held. -/
def Obligations.MultiplexerSelectsLaneByPosition : Prop :=
  ∀ (s : State) (seed : Word) (r p len k : Nat), Tracks Config.block s seed r p → k < len →
    ∃ t w, exec (.fill len) s = .next t ∧ (newWrites s t)[k]? = some (k, w) ∧
      (∀ h : (p + k) % Config.block.N < Config.block.N,
        w = combine Config.block
          (xsVecIter Config.block ((p + k) / Config.block.N + 1) (expand Config.block seed)) ⟨_, h⟩) ∧
      (k < s.cur.length ↔ (p + k) / Config.block.N + 1 ≤ r) ∧
      (∀ h : k < s.cur.length, w = s.cur[k])

/-- 42_fill_stream_cursor.md R131: a multiple of `N` runs `len / N` rounds and leaves `cur_cnt` as it was; the cursor is
empty afterwards exactly where `p + len` is a multiple of `N`. -/
def Obligations.FillMultipleOfLaneCount : Prop :=
  ∀ (s : State) (seed : Word) (r p len : Nat), Tracks Config.block s seed r p →
    ∃ t, exec (.fill len) s = .next t ∧
      (Config.block.N ∣ len → t.cur.length = s.cur.length ∧
        t.lanes = .held (List.ofFn (xsVecIter Config.block (r + len / Config.block.N) (expand Config.block seed)))) ∧
      (t.cur = [] ↔ Config.block.N ∣ p + len)

/-- 42_fill_stream_cursor.md R132: phase 3, and any round, is reached only with the cursor empty, and the cursor never
comes to hold `N` words. -/
def Obligations.RoundsRunOnlyOnEmptyCursor : Prop :=
  (∀ r : FillRun Config.block, 0 < (drainCursor r).rem → (drainCursor r).cur = []) ∧
  (∀ r : FillRun Config.block, 0 < (bulkRounds (drainCursor r)).rem → (bulkRounds (drainCursor r)).cur = []) ∧
  (∀ (s t : State) (len : Nat), s.cur.length < Config.block.N → exec (.fill len) s = .next t →
    t.cur.length < Config.block.N ∧ (t.lanes ≠ s.lanes → s.cur.length < len))

/-- 42_fill_stream_cursor.md R133: the number of rounds a FILL runs, and over the life of a Generator. -/
def Obligations.RoundsRunByFill : Prop :=
  (∀ (s : State) (v : LaneVec Config.block) (len : Nat), Ready Config.block s v →
    ∃ t n, exec (.fill len) s = .next t ∧
      n = (if len ≤ s.cur.length then 0 else ceilDiv (len - s.cur.length) Config.block.N) ∧
      t.lanes = .held (List.ofFn (xsVecIter Config.block n v)) ∧
      t.ghost.map Ghost.rounds = s.ghost.map (fun g => g.rounds + n)) ∧
  (∀ (s : State) (seed : Word) (r p : Nat), Tracks Config.block s seed r p → r = ceilDiv p Config.block.N)

/-- 42_fill_stream_cursor.md R135: `FILL len` equals `len` times NEXT, in the words written and in the state left; and
what NEXT by itself does, on a non-empty and on an empty cursor. -/
def Obligations.FillIsRepeatedNext : Prop :=
  ∀ (s : State) (v : LaneVec Config.block), Ready Config.block s v →
    (∀ len, ∃ t u, exec (.fill len) s = .next t ∧ repeatExec nextCommand len s = .next u ∧
      newWords s u = newWords s t ∧ u.seeded = t.seeded ∧ u.lanes = t.lanes ∧ u.cur = t.cur ∧ u.ghost = t.ghost) ∧
    (∀ w q, s.cur = w :: q → ∃ t, exec nextCommand s = .next t ∧ newWrites s t = [(0, w)] ∧ t.cur = q ∧
      t.lanes = s.lanes) ∧
    (s.cur = [] → ∃ t w q, exec nextCommand s = .next t ∧
      List.ofFn (combine Config.block (xsVec Config.block v)) = w :: q ∧ newWrites s t = [(0, w)] ∧ t.cur = q ∧
      t.lanes = .held (List.ofFn (xsVec Config.block v)))

/-- 20_memory.md R42, R48: a host that reads the destination after the OK of a FILL finds the stream words at the indices
below `len`, and at every other index what it found before. -/
def Obligations.HostReadsDeliveredWords : Prop :=
  ∀ (s : State) (seed : Word) (r p len : Nat), Tracks Config.block s seed r p →
    ∃ t, exec (.fill len) s = .next t ∧
      (∀ k, k < len → t.dst.read k = some (stream Config.block (expand Config.block seed) (p + k))) ∧
      (∀ k, len ≤ k → t.dst.read k = s.dst.read k)

/-- 20_memory.md R40: NOP, SEED and RELEASE perform no destination write. -/
def Obligations.OnlyFillWritesDestination : Prop :=
  ∀ (i : Instr) (s t : State), (∀ len, i ≠ .fill len) → exec i s = .next t →
    t.dst = s.dst ∧ newWrites s t = []

/-- 00_scope.md R9, 42_fill_stream_cursor.md R120, 70_reset_and_hazards.md R171, R182: whatever the state before, after a
successful SEED a FILL delivers the first words of the stream of that seed; they depend on the seed and Config alone. -/
def Obligations.SeedRestartsStreamFromAnyState : Prop :=
  ∀ (s : State) (slen : Nat) (seed : Word) (len : Nat), 64 ≤ slen →
    ∃ t u, exec (.seed slen seed) s = .next t ∧ exec (.fill len) t = .next u ∧
      newWrites t u = streamWrites Config.block (expand Config.block seed) 0 len

/-! The whole machine. -/

/-- 10_state.md R21: only a successful SEED and rounds inside a FILL write lanes, all of them together; RELEASE makes
them hold no value (R33). -/
def Obligations.OnlySeedAndRoundsWriteLanes : Prop :=
  ∀ (i : Instr) (s t : State), exec i s = .next t →
    t.lanes = s.lanes ∨
    (∃ slen seed, i = .seed slen seed ∧ 64 ≤ slen ∧
      t.lanes = .held (List.ofFn (expand Config.block seed))) ∨
    (∃ len v n, i = .fill len ∧ Ready Config.block s v ∧
      t.lanes = .held (List.ofFn (xsVecIter Config.block n v))) ∨
    (i = .release ∧ t.lanes = .noValue)

/-- 10_state.md R26: the cursor changes only in a FILL on a seeded block; SEED, RELEASE and reset empty it. -/
def Obligations.OnlyFillMutatesCursor : Prop :=
  ∀ s t : State, step s = .next t →
    t.cur = s.cur ∨ t.cur = [] ∨
    ∃ cw rest len, s.inputs = .command cw :: rest ∧ decode cw = .ok (.fill len) ∧ s.seeded = true

/-- 10_state.md R27: the flag is set by a successful SEED only and cleared by RELEASE and reset only. -/
def Obligations.OnlySeedSetsAndReleaseClearsFlag : Prop :=
  ∀ s t : State, step s = .next t →
    (s.seeded = false → t.seeded = true → ∃ cw rest slen seed,
      s.inputs = .command cw :: rest ∧ decode cw = .ok (.seed slen seed) ∧ 64 ≤ slen) ∧
    (s.seeded = true → t.seeded = false →
      (∃ cw rest, s.inputs = .command cw :: rest ∧ decode cw = .ok .release) ∨
      (∃ rest, s.inputs = .reset :: rest) ∨ (∃ cw j rest, s.inputs = .commandCutByReset cw j :: rest))

/-- 10_state.md R31: no outcome depends on the ghosts; a step commutes with forgetting them. -/
def Obligations.GhostsDecideNothing : Prop :=
  ∀ s : State, eraseGhostOutcome (step s.eraseGhost) = eraseGhostOutcome (step s)

/-- The invariant `State.Inv` (10_state.md R22, R27, R31, R34) at reset. -/
def Obligations.InvariantHoldsAtReset : Prop := State.reset.Inv Config.block

/-- Every step keeps the invariant, from every state that has it, whatever is offered. -/
def Obligations.StepKeepsInvariant : Prop :=
  ∀ s t : State, s.Inv Config.block → step s = .next t → t.Inv Config.block

/-- 70_reset_and_hazards.md R180: under the invariant every step completes: no fault, no refusal. -/
def Obligations.StepCompletesUnderInvariant : Prop :=
  ∀ s : State, s.Inv Config.block → ∃ t, step s = .next t

/-- 10_state.md R33, 93_implementation_defined.md U9: from reset, whatever the host offers and whenever reset strikes, no
run of any length ever stops; so no word that holds no value is ever read. -/
def Obligations.RunsFromResetNeverStop : Prop :=
  ∀ (offered : List Input) (k : Nat), ∃ t,
    Sys2Proof.core.run k (State.reset.setInputs offered) = .next t ∧ t.Inv Config.block

/-- 10_state.md R22: while seeded, the lanes are `N` words that are not all zero. -/
def Obligations.SeededLanesAreNotAllZero : Prop :=
  ∀ s : State, s.Inv Config.block → s.seeded = true →
    ∃ v : LaneVec Config.block, s.lanes = .held (List.ofFn v) ∧ ¬ AllZero v

/-- 10_state.md R35: while seeded, the cursor holds exactly the last `cur_cnt` outputs of the most recent round. -/
def Obligations.CursorIsSuffixOfLastRound : Prop :=
  ∀ s : State, s.Inv Config.block → s.seeded = true →
    ∃ v : LaneVec Config.block, s.lanes = .held (List.ofFn v) ∧ s.cur.length < Config.block.N ∧
      s.cur = (List.ofFn (combine Config.block v)).drop (Config.block.N - s.cur.length)

/-! The destination (20_memory.md R40, R41). -/

/-- 20_memory.md R40, log entry 5 (the model's choice: attaching is an input event): attaching a destination changes
nothing of the block, and a FILL into it delivers the next stream words; no index then reads what an earlier FILL wrote
elsewhere, only the words delivered and the words the host attached. -/
def Obligations.AttachedDestinationIsUnrelated : Prop :=
  (∀ (s : State) (ws : List (Nat × Word)) (rest : List Input), s.inputs = .attach ws :: rest →
    step s = .next { s with inputs := rest, dst := Memory.ofContents ws }) ∧
  (∀ (s : State) (seed : Word) (r p len : Nat) (ws : List (Nat × Word)) (rest : List Input),
    Tracks Config.block s seed r p → s.inputs = .attach ws :: rest →
      ∃ t u, step s = .next t ∧ exec (.fill len) t = .next u ∧
        ∀ k, u.dst.read k =
          if k < len then some (stream Config.block (expand Config.block seed) (p + k))
          else (Memory.ofContents ws).read k)

/-- 20_memory.md R41: the block never reads the destination. A step with other words in it does the same in every other
respect. -/
def Obligations.DestinationIsNeverRead : Prop :=
  ∀ (s t : State) (m : Memory), step s = .next t → ∃ m', step (s.setDst m) = .next (t.setDst m')
end

