-- ==== Sys2Proof/Laws/Memory.lean ====
section
/-! SUPPORT. The destination memory: a read after a write, and the canonical form. -/

namespace Sys2Proof.Machine

@[simp] theorem Memory.read_nil (k : Nat) : Memory.read k [] = none := rfl

theorem Memory.read_write (k j : Nat) (w : Word) (m : Memory) :
    Memory.read j (m.write k w) = if j = k then some w else m.read j := by
  induction m with
  | nil => simp [Memory.write, Memory.read, eq_comm]
  | cons x m ih =>
    obtain ⟨i, v⟩ := x
    simp only [Memory.write]
    split
    · simp only [Memory.read, eq_comm]
    · split
      · subst k
        by_cases hj : j = i <;> simp [Memory.read, hj, eq_comm]
      · simp only [Memory.read, ih]
        split <;> split <;> simp_all

@[simp] theorem Memory.read_write_same (k : Nat) (w : Word) (m : Memory) :
    Memory.read k (m.write k w) = some w := by simp [Memory.read_write]

theorem Memory.read_write_other {k j : Nat} (h : j ≠ k) (w : Word) (m : Memory) :
    Memory.read j (m.write k w) = m.read j := by simp [Memory.read_write, h]

/-- Every index of a written memory is the index written or one of before. -/
theorem Memory.index_of_mem_write {k : Nat} {w : Word} {m : Memory} {x : Nat × Word}
    (h : x ∈ m.write k w) : x.1 = k ∨ x ∈ m := by
  induction m with
  | nil => simp [Memory.write] at h; simp [h]
  | cons y m ih =>
    simp only [Memory.write] at h
    split at h
    · rcases List.mem_cons.1 h with rfl | h
      · exact .inl rfl
      · exact .inr h
    · split at h
      · rcases List.mem_cons.1 h with rfl | h
        · exact .inl rfl
        · exact .inr (List.mem_cons_of_mem _ h)
      · rcases List.mem_cons.1 h with rfl | h
        · exact .inr List.mem_cons_self
        · exact (ih h).imp_right (List.mem_cons_of_mem _)

/-- A write keeps the canonical form. -/
theorem Memory.write_wf {m : Memory} (h : m.wf) (k : Nat) (w : Word) : (m.write k w).wf := by
  induction m with
  | nil => simp [Memory.write]
  | cons y m ih =>
    have hy := List.pairwise_cons.1 h
    simp only [Memory.write]
    split
    · rename_i hk
      refine List.pairwise_cons.2 ⟨fun x hx => ?_, h⟩
      rcases List.mem_cons.1 hx with rfl | hx
      · exact hk
      · exact hk.trans (hy.1 x hx)
    · split
      · rename_i _ hk
        exact List.pairwise_cons.2 ⟨fun x hx => hk ▸ hy.1 x hx, hy.2⟩
      · refine List.pairwise_cons.2 ⟨fun x hx => ?_, ih hy.2⟩
        rcases Memory.index_of_mem_write hx with hx | hx
        · simp only [hx]; omega
        · exact hy.1 x hx

theorem Memory.reset_wf : State.reset.dst.wf := List.Pairwise.nil

end Sys2Proof.Machine
end

