-- ==== Sys2Proof/Laws/State.lean ====
section
/-! SUPPORT. Each field after each update of a single field. -/

namespace Sys2Proof.Machine

variable (s : State)

@[simp] theorem State.setSeeded_seeded (v : Bool) : (s.setSeeded v).seeded = v := rfl
@[simp] theorem State.setSeeded_lanes (v : Bool) : (s.setSeeded v).lanes = s.lanes := rfl
@[simp] theorem State.setSeeded_cur (v : Bool) : (s.setSeeded v).cur = s.cur := rfl
@[simp] theorem State.setSeeded_ghost (v : Bool) : (s.setSeeded v).ghost = s.ghost := rfl
@[simp] theorem State.setSeeded_inputs (v : Bool) : (s.setSeeded v).inputs = s.inputs := rfl
@[simp] theorem State.setSeeded_dst (v : Bool) : (s.setSeeded v).dst = s.dst := rfl
@[simp] theorem State.setSeeded_traffic (v : Bool) : (s.setSeeded v).traffic = s.traffic := rfl

@[simp] theorem State.setLanes_seeded (v : Lanes) : (s.setLanes v).seeded = s.seeded := rfl
@[simp] theorem State.setLanes_lanes (v : Lanes) : (s.setLanes v).lanes = v := rfl
@[simp] theorem State.setLanes_cur (v : Lanes) : (s.setLanes v).cur = s.cur := rfl
@[simp] theorem State.setLanes_ghost (v : Lanes) : (s.setLanes v).ghost = s.ghost := rfl
@[simp] theorem State.setLanes_inputs (v : Lanes) : (s.setLanes v).inputs = s.inputs := rfl
@[simp] theorem State.setLanes_dst (v : Lanes) : (s.setLanes v).dst = s.dst := rfl
@[simp] theorem State.setLanes_traffic (v : Lanes) : (s.setLanes v).traffic = s.traffic := rfl

@[simp] theorem State.setCur_seeded (q : List Word) : (s.setCur q).seeded = s.seeded := rfl
@[simp] theorem State.setCur_lanes (q : List Word) : (s.setCur q).lanes = s.lanes := rfl
@[simp] theorem State.setCur_cur (q : List Word) : (s.setCur q).cur = q := rfl
@[simp] theorem State.setCur_ghost (q : List Word) : (s.setCur q).ghost = s.ghost := rfl
@[simp] theorem State.setCur_inputs (q : List Word) : (s.setCur q).inputs = s.inputs := rfl
@[simp] theorem State.setCur_dst (q : List Word) : (s.setCur q).dst = s.dst := rfl
@[simp] theorem State.setCur_traffic (q : List Word) : (s.setCur q).traffic = s.traffic := rfl

@[simp] theorem State.setGhost_seeded (g : Option Ghost) : (s.setGhost g).seeded = s.seeded := rfl
@[simp] theorem State.setGhost_lanes (g : Option Ghost) : (s.setGhost g).lanes = s.lanes := rfl
@[simp] theorem State.setGhost_cur (g : Option Ghost) : (s.setGhost g).cur = s.cur := rfl
@[simp] theorem State.setGhost_ghost (g : Option Ghost) : (s.setGhost g).ghost = g := rfl
@[simp] theorem State.setGhost_inputs (g : Option Ghost) : (s.setGhost g).inputs = s.inputs := rfl
@[simp] theorem State.setGhost_dst (g : Option Ghost) : (s.setGhost g).dst = s.dst := rfl
@[simp] theorem State.setGhost_traffic (g : Option Ghost) : (s.setGhost g).traffic = s.traffic := rfl

@[simp] theorem State.setInputs_seeded (l : List Input) : (s.setInputs l).seeded = s.seeded := rfl
@[simp] theorem State.setInputs_lanes (l : List Input) : (s.setInputs l).lanes = s.lanes := rfl
@[simp] theorem State.setInputs_cur (l : List Input) : (s.setInputs l).cur = s.cur := rfl
@[simp] theorem State.setInputs_ghost (l : List Input) : (s.setInputs l).ghost = s.ghost := rfl
@[simp] theorem State.setInputs_inputs (l : List Input) : (s.setInputs l).inputs = l := rfl
@[simp] theorem State.setInputs_dst (l : List Input) : (s.setInputs l).dst = s.dst := rfl
@[simp] theorem State.setInputs_traffic (l : List Input) : (s.setInputs l).traffic = s.traffic := rfl

@[simp] theorem State.setDst_seeded (m : Memory) : (s.setDst m).seeded = s.seeded := rfl
@[simp] theorem State.setDst_lanes (m : Memory) : (s.setDst m).lanes = s.lanes := rfl
@[simp] theorem State.setDst_cur (m : Memory) : (s.setDst m).cur = s.cur := rfl
@[simp] theorem State.setDst_ghost (m : Memory) : (s.setDst m).ghost = s.ghost := rfl
@[simp] theorem State.setDst_inputs (m : Memory) : (s.setDst m).inputs = s.inputs := rfl
@[simp] theorem State.setDst_dst (m : Memory) : (s.setDst m).dst = m := rfl
@[simp] theorem State.setDst_traffic (m : Memory) : (s.setDst m).traffic = s.traffic := rfl

@[simp] theorem State.send_seeded (t : Transfer) : (s.send t).seeded = s.seeded := rfl
@[simp] theorem State.send_lanes (t : Transfer) : (s.send t).lanes = s.lanes := rfl
@[simp] theorem State.send_cur (t : Transfer) : (s.send t).cur = s.cur := rfl
@[simp] theorem State.send_ghost (t : Transfer) : (s.send t).ghost = s.ghost := rfl
@[simp] theorem State.send_inputs (t : Transfer) : (s.send t).inputs = s.inputs := rfl
@[simp] theorem State.send_dst (t : Transfer) : (s.send t).dst = s.dst := rfl
@[simp] theorem State.send_traffic (t : Transfer) : (s.send t).traffic = s.traffic ++ [t] := rfl

end Sys2Proof.Machine
end

