-- ==== Sys2Proof/Laws/Ops.lean ====
section
/-! SUPPORT. One lemma for each shared operation: the whole of what it does to the state. -/

namespace Sys2Proof.Machine

/-- Completing a command adds its response to the traffic and does nothing else. -/
theorem State.respond_eq (r : Response) (s : State) :
    s.respond r = { s with traffic := s.traffic ++ [.response r.code] } := rfl

/-- An error is a response and nothing else (60_exceptions.md R157). -/
theorem State.raise_eq (e : Response) (s : State) :
    s.raise e = { s with traffic := s.traffic ++ [.response e.code] } := rfl

/-- Accepting a command adds its word to the traffic and does nothing else. -/
theorem State.accept_eq (cw : CommandWord) (s : State) :
    s.accept cw = { s with traffic := s.traffic ++ [.command cw] } := rfl

/-- Attaching a destination changes the destination and nothing else. -/
theorem State.attach_eq (ws : List (Nat × Word)) (s : State) :
    s.attach ws = { s with dst := Memory.ofContents ws } := rfl

theorem State.discardGenerator_eq (s : State) :
    s.discardGenerator = { s with seeded := false, lanes := .noValue, cur := [], ghost := none } := rfl

theorem State.resetBlock_eq (s : State) :
    s.resetBlock = { s with seeded := false, lanes := .noValue, cur := [], ghost := none } := rfl

theorem State.construct_eq {cfg : Config} (v : LaneVec cfg) (s : State) :
    s.construct v = { s with
      seeded := true, lanes := .held (List.ofFn v), cur := [],
      ghost := some { s0 := List.ofFn v, rounds := 0, delivered := 0 } } := rfl

@[simp] theorem State.writeLanes_lanes {cfg : Config} (v : LaneVec cfg) (s : State) :
    (s.writeLanes v).lanes = .held (List.ofFn v) := rfl

/-- A held vector reads back. -/
theorem State.readLanes_of_held {cfg : Config} {s : State} {v : LaneVec cfg}
    (h : s.lanes = .held (List.ofFn v)) : s.readLanes cfg = some v := by
  simp [State.readLanes, h]

/-- What reads as a vector is held as the list of its entries. -/
theorem State.held_of_readLanes {cfg : Config} {s : State} {v : LaneVec cfg}
    (h : s.readLanes cfg = some v) : s.lanes = .held (List.ofFn v) := by
  unfold State.readLanes at h
  split at h
  · cases h
  · split at h
    · rename_i ws hs hl
      cases h
      rw [hs]
      congr 1
      refine List.ext_getElem (by simp [hl]) fun i h1 h2 => by simp
    · cases h

theorem State.readLanes_eq_some {cfg : Config} {s : State} {v : LaneVec cfg} :
    s.readLanes cfg = some v ↔ s.lanes = .held (List.ofFn v) :=
  ⟨State.held_of_readLanes, State.readLanes_of_held⟩

/-- Destination writes change the destination and the traffic and nothing else. -/
theorem State.performWrites_eq (ws : List (Nat × Word)) (s : State) :
    s.performWrites ws = { s with
      dst := s.dst.writeAll ws,
      traffic := s.traffic ++ ws.map (fun x => .dstWrite x.1 x.2) } := by
  induction ws generalizing s with
  | nil => simp [State.performWrites, Memory.writeAll]
  | cons x ws ih =>
    obtain ⟨k, w⟩ := x
    simp [State.performWrites, Memory.writeAll, ih, State.dstWrite, State.setDst, State.send]

theorem Memory.writeAll_wf (ws : List (Nat × Word)) {m : Memory} (h : m.wf) : (m.writeAll ws).wf := by
  induction ws generalizing m with
  | nil => exact h
  | cons x ws ih => exact ih (Memory.write_wf h _ _)

theorem Memory.writeAll_append (ws us : List (Nat × Word)) (m : Memory) :
    m.writeAll (ws ++ us) = (m.writeAll ws).writeAll us := by
  induction ws generalizing m with
  | nil => rfl
  | cons x ws ih => exact ih _

theorem Memory.ofContents_wf (ws : List (Nat × Word)) : (Memory.ofContents ws).wf :=
  Memory.writeAll_wf ws List.Pairwise.nil

/-- A word given last for its index is what the index reads as. -/
theorem Memory.read_ofContents_concat (ws : List (Nat × Word)) (j k : Nat) (w : Word) :
    Memory.read j (Memory.ofContents (ws ++ [(k, w)])) = if j = k then some w else Memory.read j (Memory.ofContents ws) := by
  simp [Memory.ofContents, Memory.writeAll_append, Memory.writeAll, Memory.read_write]

@[simp] theorem writesIn_nil : writesIn [] = [] := rfl

@[simp] theorem writesIn_append (ts us : List Transfer) : writesIn (ts ++ us) = writesIn ts ++ writesIn us := by
  induction ts with
  | nil => rfl
  | cons t ts ih => cases t <;> simp [writesIn, ih]

@[simp] theorem writesIn_dstWrites (ws : List (Nat × Word)) :
    writesIn (ws.map (fun x => .dstWrite x.1 x.2)) = ws := by
  induction ws with
  | nil => rfl
  | cons x ws ih => simp [writesIn, ih]

@[simp] theorem writesIn_response (r : ResponseWord) : writesIn [.response r] = [] := rfl

@[simp] theorem writesIn_command (cw : CommandWord) : writesIn [.command cw] = [] := rfl

end Sys2Proof.Machine
end

