-- ==== Sys2Proof/Laws/RoundEngine.lean ====
section
/-! SUPPORT. Iterated rounds, their outputs in sequence, and the canonical stream. -/

namespace Sys2Proof.Machine

variable (cfg : Config)

@[simp] theorem xsVecIter_zero (v : LaneVec cfg) : xsVecIter cfg 0 v = v := rfl

theorem xsVecIter_succ (r : Nat) (v : LaneVec cfg) : xsVecIter cfg (r + 1) v = xsVec cfg (xsVecIter cfg r v) := rfl

theorem xsVecIter_add (m n : Nat) (v : LaneVec cfg) :
    xsVecIter cfg (m + n) v = xsVecIter cfg m (xsVecIter cfg n v) := by
  induction m with
  | zero => simp
  | succ m ih => rw [Nat.add_right_comm, xsVecIter_succ, ih, xsVecIter_succ]

theorem xsVecIter_xsVec (r : Nat) (v : LaneVec cfg) : xsVecIter cfg r (xsVec cfg v) = xsVecIter cfg (r + 1) v := by
  rw [xsVecIter_add]; rfl

/-- One round more at the end. -/
theorem outputsOf_succ_last (n : Nat) (v : LaneVec cfg) :
    outputsOf cfg (n + 1) v = outputsOf cfg n v ++ List.ofFn (combine cfg (xsVecIter cfg (n + 1) v)) := by
  induction n generalizing v with
  | zero => simp [outputsOf, xsVecIter]
  | succ n ih => rw [outputsOf, ih, xsVecIter_xsVec, ← List.append_assoc, ← outputsOf]

@[simp] theorem outputsOf_length (n : Nat) (v : LaneVec cfg) : (outputsOf cfg n v).length = n * cfg.N := by
  induction n generalizing v with
  | zero => simp [outputsOf]
  | succ n ih => simp [outputsOf, ih, Nat.succ_mul, Nat.add_comm]

theorem outputsOf_add (m n : Nat) (v : LaneVec cfg) :
    outputsOf cfg (m + n) v = outputsOf cfg m v ++ outputsOf cfg n (xsVecIter cfg m v) := by
  induction m generalizing v with
  | zero => simp [outputsOf]
  | succ m ih => rw [Nat.add_right_comm, outputsOf, ih, outputsOf, List.append_assoc, xsVecIter_xsVec]

/-- The stream words `k, k+1, ..., k+n-1`. -/
def streamFrom (s0 : LaneVec cfg) (k n : Nat) : List Word :=
  (List.range n).map (fun j => stream cfg s0 (k + j))

@[simp] theorem streamFrom_length (s0 : LaneVec cfg) (k n : Nat) : (streamFrom cfg s0 k n).length = n := by
  simp [streamFrom]

@[simp] theorem streamFrom_zero (s0 : LaneVec cfg) (k : Nat) : streamFrom cfg s0 k 0 = [] := rfl

theorem streamFrom_getElem (s0 : LaneVec cfg) (k n j : Nat) (h : j < (streamFrom cfg s0 k n).length) :
    (streamFrom cfg s0 k n)[j] = stream cfg s0 (k + j) := by
  simp [streamFrom]

theorem streamFrom_add (s0 : LaneVec cfg) (k m n : Nat) :
    streamFrom cfg s0 k (m + n) = streamFrom cfg s0 k m ++ streamFrom cfg s0 (k + m) n := by
  simp [streamFrom, List.range_add, Function.comp_def, Nat.add_assoc]

theorem streamFrom_take (s0 : LaneVec cfg) (k m n : Nat) (h : n ≤ m) :
    (streamFrom cfg s0 k m).take n = streamFrom cfg s0 k n := by
  obtain ⟨d, rfl⟩ := Nat.exists_eq_add_of_le h
  rw [streamFrom_add, List.take_left' (by simp)]

theorem streamFrom_drop (s0 : LaneVec cfg) (k m n : Nat) (h : n ≤ m) :
    (streamFrom cfg s0 k m).drop n = streamFrom cfg s0 (k + n) (m - n) := by
  obtain ⟨d, rfl⟩ := Nat.exists_eq_add_of_le h
  rw [streamFrom_add, List.drop_left' (by simp), Nat.add_sub_cancel_left]

/-- Round `r + 1` supplies the stream words from `N * r` on (42_fill_stream_cursor.md R128). -/
theorem streamFrom_round (s0 : LaneVec cfg) (r : Nat) :
    streamFrom cfg s0 (cfg.N * r) cfg.N = List.ofFn (combine cfg (xsVecIter cfg (r + 1) s0)) := by
  refine List.ext_getElem (by simp) fun j h1 h2 => ?_
  have hj : j < cfg.N := by simpa using h1
  rw [streamFrom_getElem, stream]
  have hdiv : (cfg.N * r + j) / cfg.N = r := by
    rw [Nat.mul_add_div cfg.N_pos, Nat.div_eq_of_lt hj, Nat.add_zero]
  have hmod : (cfg.N * r + j) % cfg.N = j := by rw [Nat.mul_add_mod, Nat.mod_eq_of_lt hj]
  simp [hdiv, hmod]

/-- The outputs of rounds `r + 1` to `r + n` are the stream words from `N * r` on. -/
theorem outputsOf_eq_streamFrom (s0 : LaneVec cfg) (r n : Nat) :
    outputsOf cfg n (xsVecIter cfg r s0) = streamFrom cfg s0 (cfg.N * r) (cfg.N * n) := by
  induction n generalizing r with
  | zero => rfl
  | succ n ih =>
    rw [outputsOf, ← xsVecIter_succ, ih, Nat.mul_succ, Nat.mul_succ, Nat.add_comm (cfg.N * n), streamFrom_add,
      streamFrom_round]

end Sys2Proof.Machine
end

