-- ==== Sys2Proof/Laws/Fill.lean ====
section
/-! SUPPORT. The three phases of a FILL, each by one lemma, and the whole of `Fill(L)` in terms of the held words
followed by the outputs of the rounds it runs. -/

namespace Sys2Proof.Machine

variable {cfg : Config}

@[simp] theorem placeAt_length (d : Nat) (ws : List Word) : (placeAt d ws).length = ws.length := by
  induction ws generalizing d with
  | nil => rfl
  | cons w ws ih => simp [placeAt, ih]

theorem placeAt_append (d : Nat) (ws us : List Word) :
    placeAt d (ws ++ us) = placeAt d ws ++ placeAt (d + ws.length) us := by
  induction ws generalizing d with
  | nil => simp [placeAt]
  | cons w ws ih => simp [placeAt, ih, Nat.add_assoc, Nat.add_comm 1]

@[simp] theorem placeAt_words (d : Nat) (ws : List Word) : (placeAt d ws).map Prod.snd = ws := by
  induction ws generalizing d with
  | nil => rfl
  | cons w ws ih => simp [placeAt, ih]

theorem placeAt_getElem (d : Nat) (ws : List Word) (j : Nat) (h : j < (placeAt d ws).length) :
    (placeAt d ws)[j] = (d + j, ws[j]'(by simpa using h)) := by
  induction ws generalizing d j with
  | nil => simp [placeAt] at h
  | cons w ws ih =>
    cases j with
    | zero => simp [placeAt]
    | succ j =>
      simp only [placeAt, List.getElem_cons_succ]
      rw [ih]
      simp [Nat.add_assoc, Nat.add_comm 1]

theorem placeAt_streamFrom (s0 : LaneVec cfg) (p len : Nat) :
    placeAt 0 (streamFrom cfg s0 p len) = streamWrites cfg s0 p len := by
  refine List.ext_getElem (by simp [streamWrites]) fun j h1 h2 => ?_
  rw [placeAt_getElem]
  simp [streamWrites, streamFrom_getElem]

/-- Placed words read back at their index; every other index reads as before (20_memory.md R42, R48). -/
theorem Memory.read_writeAll_placeAt (d : Nat) (ws : List Word) (m : Memory) (k : Nat) :
    Memory.read k (m.writeAll (placeAt d ws)) =
      if h : d ≤ k ∧ k < d + ws.length then some (ws[k - d]'(by omega)) else m.read k := by
  induction ws generalizing d m with
  | nil =>
    rw [dif_neg (by simp)]
    rfl
  | cons w ws ih =>
    simp only [placeAt, Memory.writeAll, ih]
    by_cases h1 : d + 1 ≤ k ∧ k < d + 1 + ws.length
    · rw [dif_pos h1, dif_pos (by simp; omega)]
      have : k - d = k - (d + 1) + 1 := by omega
      simp [this]
    · rw [dif_neg h1]
      by_cases h2 : k = d
      · subst h2
        simp
      · rw [Memory.read_write_other h2, dif_neg (by simp; omega)]

/-- Phase 2 in one equation: `n` rounds, all their outputs delivered, the cursor untouched. -/
theorem bulkPasses_eq (n : Nat) (r : FillRun cfg) :
    bulkPasses n r = { r with
      lanes := xsVecIter cfg n r.lanes, d := r.d + n * cfg.N, rem := r.rem - n * cfg.N,
      writes := r.writes ++ placeAt r.d (outputsOf cfg n r.lanes), rounds := r.rounds + n } := by
  induction n generalizing r with
  | zero => simp [bulkPasses, outputsOf, placeAt]
  | succ n ih =>
    rw [bulkPasses, ih]
    simp only [bulkPass, FillRun.deliver, FillRun.roundStep, FillRun.outputs, List.length_ofFn, xsVecIter_xsVec,
      FillRun.mk.injEq, true_and]
    refine ⟨?_, ?_, ?_, ?_⟩
    · rw [Nat.succ_mul]; omega
    · rw [Nat.succ_mul]; omega
    · rw [outputsOf, placeAt_append]; simp
    · omega

/-- The loop condition of phase 2: while `rem >= N` there is a pass, and after the passes there is none
(42_fill_stream_cursor.md R122, R124). -/
theorem bulkRounds_rem (r : FillRun cfg) : (bulkRounds r).rem = r.rem % cfg.N := by
  rw [bulkRounds, bulkPasses_eq]
  have := Nat.div_add_mod r.rem cfg.N
  rw [Nat.mul_comm] at this
  simp only
  omega

theorem ceilDiv_add_mul (q t : Nat) (n : Nat) (hn : 0 < n) (ht : t < n) :
    ceilDiv (q * n + t) n = if t = 0 then q else q + 1 := by
  unfold ceilDiv
  split
  · subst t
    rw [Nat.add_zero, Nat.add_sub_assoc hn, Nat.mul_comm, Nat.mul_add_div hn, Nat.div_eq_of_lt (by omega),
      Nat.add_zero]
  · have : q * n + t + n - 1 = n * (q + 1) + (t - 1) := by rw [Nat.mul_comm q, Nat.mul_succ]; omega
    rw [this, Nat.mul_add_div hn, Nat.div_eq_of_lt (by omega), Nat.add_zero]

/-- The whole of `Fill(L)` (42_fill_stream_cursor.md R122): with `n` the rounds needed, it writes the first `L` of the
held words followed by the outputs of `n` rounds, keeps the rest of them, and leaves the lanes `n` rounds on. -/
theorem fillRun_eq (len : Nat) (v : LaneVec cfg) (cur : List Word) :
    fillRun cfg len v cur =
      { lanes := xsVecIter cfg (roundsNeeded cfg cur.length len) v
        cur := (cur ++ outputsOf cfg (roundsNeeded cfg cur.length len) v).drop len
        d := len
        rem := 0
        writes := placeAt 0 ((cur ++ outputsOf cfg (roundsNeeded cfg cur.length len) v).take len)
        rounds := roundsNeeded cfg cur.length len } := by
  unfold fillRun roundsNeeded
  by_cases hle : len ≤ cur.length
  · simp only [if_pos hle, outputsOf, List.append_nil]
    simp [drainCursor, FillRun.deliver, bulkRounds, bulkPasses, partialTail, hle]
  · have hlt : cur.length < len := by omega
    have hN := cfg.N_pos
    rw [if_neg hle]
    have hdrain : drainCursor (cfg := cfg)
        { lanes := v, cur := cur, d := 0, rem := len, writes := [], rounds := 0 } =
        { lanes := v, cur := [], d := cur.length, rem := len - cur.length, writes := placeAt 0 cur, rounds := 0 } := by
      simp [drainCursor, FillRun.deliver, Nat.min_eq_left hlt.le]
    rw [hdrain, bulkRounds, bulkPasses_eq]
    have hdm := Nat.div_add_mod (len - cur.length) cfg.N
    rw [Nat.mul_comm] at hdm
    have hmod := Nat.mod_lt (len - cur.length) hN
    obtain ⟨q, hq⟩ : ∃ q, q = (len - cur.length) / cfg.N := ⟨_, rfl⟩
    obtain ⟨t, ht⟩ : ∃ t, t = (len - cur.length) % cfg.N := ⟨_, rfl⟩
    simp only [← hq, ← ht] at hdm hmod ⊢
    have hsub : len - cur.length - q * cfg.N = t := by omega
    have hlen : len = cur.length + (q * cfg.N + t) := by omega
    rw [show ceilDiv (len - cur.length) cfg.N = _ from hdm ▸ ceilDiv_add_mul q t cfg.N hN hmod]
    by_cases ht0 : t = 0
    · have hfull : (cur ++ outputsOf cfg q v).length = len := by simp; omega
      simp only [partialTail, hsub, if_pos ht0, FillRun.mk.injEq, true_and]
      refine ⟨?_, ?_, ?_, ?_, ?_⟩
      · rw [List.drop_of_length_le hfull.le]
      · omega
      · exact ht0
      · rw [List.take_of_length_le hfull.le, placeAt_append]; simp
      · omega
    · have hprefix : (cur ++ outputsOf cfg q v).length = len - t := by simp; omega
      have hsplit : cur ++ outputsOf cfg (q + 1) v =
          (cur ++ outputsOf cfg q v) ++ List.ofFn (combine cfg (xsVecIter cfg (q + 1) v)) := by
        rw [outputsOf_succ_last, List.append_assoc]
      have hl : len = (cur ++ outputsOf cfg q v).length + t := by omega
      simp only [partialTail, hsub, if_neg ht0, FillRun.deliver, FillRun.roundStep, FillRun.outputs,
        ← xsVecIter_succ, FillRun.mk.injEq, true_and]
      refine ⟨?_, ?_, ?_, ?_, ?_⟩
      · rw [hsplit, hl, List.drop_length_add_append]
      · simp [Nat.min_eq_left hmod.le]; omega
      · simp [Nat.min_eq_left hmod.le]
      · rw [hsplit, hl, List.take_length_add_append]
        simp [placeAt_append]
      · omega

/-- The state a FILL of `len` words leaves where the lanes hold `v`, with `n` the rounds needed: the held words followed
by the outputs of `n` rounds are split at `len`. -/
def State.filled (cfg : Config) (len : Nat) (v : LaneVec cfg) (s : State) : State :=
  let n := roundsNeeded cfg s.cur.length len
  let q := s.cur ++ outputsOf cfg n v
  { s with
    lanes := .held (List.ofFn (xsVecIter cfg n v)),
    cur := q.drop len,
    ghost := s.ghost.map (Ghost.afterFill n len),
    dst := s.dst.writeAll (placeAt 0 (q.take len)),
    traffic := s.traffic ++ asTransfers (placeAt 0 (q.take len)) ++ [.response Response.ok.code] }

/-- A FILL on a ready block completes, and `filled` is the next state. -/
theorem fillOn_ready (len : Nat) {s : State} {v : LaneVec cfg} (h : Ready cfg s v) :
    fillOn cfg len s = .next (s.filled cfg len v) := by
  unfold fillOn
  rw [if_pos h.seeded, State.readLanes_of_held h.lanes]
  simp only [fillRun_eq, State.commitFill, State.performWrites_eq, State.respond_eq]
  rfl

section
variable (len : Nat) (v : LaneVec cfg) (s : State)

@[simp] theorem State.filled_seeded : (s.filled cfg len v).seeded = s.seeded := rfl
@[simp] theorem State.filled_inputs : (s.filled cfg len v).inputs = s.inputs := rfl
@[simp] theorem State.filled_lanes :
    (s.filled cfg len v).lanes = .held (List.ofFn (xsVecIter cfg (roundsNeeded cfg s.cur.length len) v)) := rfl
@[simp] theorem State.filled_cur :
    (s.filled cfg len v).cur = (s.cur ++ outputsOf cfg (roundsNeeded cfg s.cur.length len) v).drop len := rfl
@[simp] theorem State.filled_ghost :
    (s.filled cfg len v).ghost = s.ghost.map (Ghost.afterFill (roundsNeeded cfg s.cur.length len) len) := rfl
@[simp] theorem State.filled_dst :
    (s.filled cfg len v).dst = s.dst.writeAll
      (placeAt 0 ((s.cur ++ outputsOf cfg (roundsNeeded cfg s.cur.length len) v).take len)) := rfl
@[simp] theorem State.filled_traffic :
    (s.filled cfg len v).traffic = s.traffic ++ asTransfers
      (placeAt 0 ((s.cur ++ outputsOf cfg (roundsNeeded cfg s.cur.length len) v).take len)) ++
      [.response Response.ok.code] := rfl
end

/-- Everything a FILL can answer, on a block built with `cfg`. -/
theorem fillOn_cases (len : Nat) (s : State) :
    (s.seeded = false ∧ fillOn cfg len s = .next (s.raise .notSeeded)) ∨
    (s.seeded = true ∧ s.readLanes cfg = none ∧ fillOn cfg len s = .fault .laneHoldsNoValue) ∨
    (∃ v, Ready cfg s v ∧ fillOn cfg len s = .next (s.filled cfg len v)) := by
  cases hs : s.seeded with
  | false => exact .inl ⟨rfl, by simp [fillOn, hs]⟩
  | true =>
    cases hr : s.readLanes cfg with
    | none => exact .inr (.inl ⟨rfl, rfl, by simp [fillOn, hs, hr]⟩)
    | some v =>
      have hv : Ready cfg s v := ⟨hs, State.held_of_readLanes hr⟩
      exact .inr (.inr ⟨v, hv, fillOn_ready len hv⟩)

/-- There are words enough, and fewer than `N` are left over if fewer were held. -/
theorem filled_words (cfg : Config) (c len : Nat) :
    len ≤ c + roundsNeeded cfg c len * cfg.N ∧
      (c < cfg.N → c + roundsNeeded cfg c len * cfg.N - len < cfg.N) := by
  unfold roundsNeeded
  split
  · omega
  · have hN := cfg.N_pos
    unfold ceilDiv
    have h1 := Nat.div_add_mod (len - c + cfg.N - 1) cfg.N
    have h2 := Nat.mod_lt (len - c + cfg.N - 1) hN
    rw [Nat.mul_comm] at h1
    omega

/-- A block at a stream position is ready. -/
theorem Tracks.ready {s : State} {seed : Word} {r p : Nat} (h : Tracks cfg s seed r p) :
    Ready cfg s (xsVecIter cfg r (expand cfg seed)) := ⟨h.seeded, h.lanes⟩

end Sys2Proof.Machine
end

