-- ==== Sys2Proof/Laws/Channels.lean ====
section
/-! SUPPORT. What `exec`, a command word and a step can do, each said once. -/

namespace Sys2Proof.Machine

/-- The block in hand is the instance built with `Config.block`. -/
theorem exec_eq_execOn (i : Instr) (s : State) : exec i s = execOn Config.block i s := by cases i <;> rfl

theorem step_eq_stepOn (s : State) : step s = stepOn Config.block s := by
  unfold step stepOn
  exact congrArg (fun run => stepWith run s) (funext fun i => funext fun t => exec_eq_execOn i t)

/-- A SEED with enough declared bits: this is the next state (40_seed_expander.md R86). -/
theorem seedOn_sufficient (cfg : Config) {slen : Nat} (h : 64 ≤ slen) (seed : Word) (s : State) :
    seedOn cfg slen seed s = .next { s with
      seeded := true, lanes := .held (List.ofFn (expand cfg seed)), cur := [],
      ghost := some { s0 := List.ofFn (expand cfg seed), rounds := 0, delivered := 0 },
      traffic := s.traffic ++ [.response Response.ok.code] } := by
  simp [seedOn, seedSufficient, h, State.construct_eq, State.respond_eq]

/-- A SEED with too few declared bits: only the response (40_seed_expander.md R87). -/
theorem seedOn_insufficient (cfg : Config) {slen : Nat} (h : slen < 64) (seed : Word) (s : State) :
    seedOn cfg slen seed s = .next { s with traffic := s.traffic ++ [.response Response.insufficientSeed.code] } := by
  simp [seedOn, seedSufficient, Nat.not_le.2 h, State.raise_eq]

/-- A FILL without a Generator: only the response (60_exceptions.md R152). -/
theorem fillOn_unseeded (cfg : Config) (len : Nat) {s : State} (h : s.seeded = false) :
    fillOn cfg len s = .next { s with traffic := s.traffic ++ [.response Response.notSeeded.code] } := by
  simp [fillOn, h, State.raise_eq]

/-- A command that completes adds its destination writes and then one response to the traffic, puts the same writes
into the destination, and takes nothing from the inputs. -/
theorem execOn_channels {cfg : Config} {i : Instr} {s t : State} (h : execOn cfg i s = .next t) :
    ∃ ws r, t.traffic = s.traffic ++ asTransfers ws ++ [.response r] ∧ t.dst = s.dst.writeAll ws ∧
      t.inputs = s.inputs ∧ ((∀ len, i ≠ .fill len) → ws = []) := by
  cases i with
  | nop =>
    cases h
    exact ⟨[], Response.ok.code, by simp [State.respond_eq, asTransfers], rfl, rfl, fun _ => rfl⟩
  | release =>
    cases h
    exact ⟨[], Response.ok.code, by simp [State.respond_eq, State.discardGenerator_eq, asTransfers], rfl, rfl, fun _ => rfl⟩
  | seed slen seed =>
    rcases Nat.lt_or_ge slen 64 with hs | hs
    · rw [execOn, seedOn_insufficient cfg hs] at h
      cases h
      exact ⟨[], Response.insufficientSeed.code, by simp [asTransfers], rfl, rfl, fun _ => rfl⟩
    · rw [execOn, seedOn_sufficient cfg hs] at h
      cases h
      exact ⟨[], Response.ok.code, by simp [asTransfers], rfl, rfl, fun _ => rfl⟩
  | fill len =>
    rcases fillOn_cases (cfg := cfg) len s with ⟨hs, _⟩ | ⟨_, _, hf⟩ | ⟨v, _, hf⟩
    · rw [execOn, fillOn_unseeded cfg len hs] at h
      cases h
      exact ⟨[], Response.notSeeded.code, by simp [asTransfers], rfl, rfl, fun _ => rfl⟩
    · rw [execOn, hf] at h
      cases h
    · rw [execOn, hf] at h
      cases h
      exact ⟨_, _, rfl, rfl, rfl, fun hne => absurd rfl (hne len)⟩

@[simp] theorem newWrites_of_traffic {s t : State} {ts : List Transfer} (h : t.traffic = s.traffic ++ ts) :
    newWrites s t = writesIn ts := by
  simp [newWrites, h]

/-- A legal word runs its command (30_encoding.md R69). -/
theorem runWord_ok (run : Instr → State → Host.Outcome State Fault Refusal) {cw : CommandWord} {i : Instr}
    (h : decode cw = .ok i) (s : State) : runWord run cw s = run i (s.accept cw) := by
  simp [runWord, h]

/-- An illegal word is answered with IllegalCommand and has no other effect (60_exceptions.md R153). -/
theorem runWord_error (run : Instr → State → Host.Outcome State Fault Refusal) {cw : CommandWord} {e : Illegal}
    (h : decode cw = .error e) (s : State) :
    runWord run cw s = .next ((s.accept cw).raise .illegalCommand) := by
  simp [runWord, h]

/-- A command word that completes: accepted, its writes performed, answered once (30_encoding.md R70). -/
theorem runWord_channels {cfg : Config} {cw : CommandWord} {s t : State}
    (h : runWord (execOn cfg) cw s = .next t) :
    ∃ ws r, t.traffic = s.traffic ++ [.command cw] ++ asTransfers ws ++ [.response r] ∧
      t.dst = s.dst.writeAll ws ∧ t.inputs = s.inputs := by
  cases hd : decode cw with
  | ok i =>
    rw [runWord_ok _ hd] at h
    obtain ⟨ws, r, h1, h2, h3, _⟩ := execOn_channels h
    exact ⟨ws, r, by simpa [State.accept_eq] using h1, h2, h3⟩
  | error e =>
    rw [runWord_error _ hd] at h
    cases h
    exact ⟨[], Response.illegalCommand.code, by simp [State.accept_eq, State.raise_eq, asTransfers], rfl, rfl⟩

/-- A command cut by reset, where the whole command would perform the writes `ws` (70_reset_and_hazards.md R184). -/
theorem cutWord_of_traffic (run : Instr → State → Host.Outcome State Fault Refusal) {cw : CommandWord} {s t : State}
    {ws : List (Nat × Word)} {r : ResponseWord} (h : runWord run cw s = .next t)
    (ht : t.traffic = s.traffic ++ [.command cw] ++ asTransfers ws ++ [.response r]) (j : Nat) :
    cutWord run cw j s = .next { s with
      seeded := false, lanes := .noValue, cur := [], ghost := none,
      dst := s.dst.writeAll (ws.take j),
      traffic := s.traffic ++ [.command cw] ++ asTransfers (ws.take j) } := by
  have hw : writesIn (t.traffic.drop (s.accept cw).traffic.length) = ws := by
    rw [ht, State.accept_eq, List.append_assoc, List.drop_left]
    simp [asTransfers]
  simp only [cutWord, h]
  rw [hw]
  simp only [State.performWrites_eq, State.accept_eq, State.resetBlock_eq, asTransfers]

/-- Everything one step can do. -/
theorem stepWith_cases (run : Instr → State → Host.Outcome State Fault Refusal) (s : State) :
    (s.inputs = [] ∧ stepWith run s = .next s) ∨
    (∃ cw rest, s.inputs = .command cw :: rest ∧ stepWith run s = runWord run cw (s.setInputs rest)) ∨
    (∃ ws rest, s.inputs = .attach ws :: rest ∧ stepWith run s = .next ((s.setInputs rest).attach ws)) ∨
    (∃ rest, s.inputs = .reset :: rest ∧ stepWith run s = .next (s.setInputs rest).resetBlock) ∨
    (∃ cw j rest, s.inputs = .commandCutByReset cw j :: rest ∧
      stepWith run s = cutWord run cw j (s.setInputs rest)) := by
  cases hi : s.inputs with
  | nil => exact .inl ⟨rfl, by simp [stepWith, hi]⟩
  | cons x rest =>
    cases x with
    | command cw => exact .inr (.inl ⟨cw, rest, rfl, by simp [stepWith, hi]⟩)
    | attach ws => exact .inr (.inr (.inl ⟨ws, rest, rfl, by simp [stepWith, hi]⟩))
    | reset => exact .inr (.inr (.inr (.inl ⟨rest, rfl, by simp [stepWith, hi]⟩)))
    | commandCutByReset cw j => exact .inr (.inr (.inr (.inr ⟨cw, j, rest, rfl, by simp [stepWith, hi]⟩)))

end Sys2Proof.Machine
end

