-- ==== Sys2Proof/Laws/PerInstr.lean ====
section
/-! SUPPORT. Statements for every command as syntax, one lemma per constructor. -/

namespace Sys2Proof.Laws.FixedFields

open Sys2Proof

/-- The encoding of a command carries its operation code in `CW[3:0]` and zero in `rsv` (30_encoding.md R61, R62). -/
def Statement (i : Instr) : Prop := opField (encode i) = opcodeOf i ∧ rsvField (encode i) = 0

/-- The value of an assembled word (30_encoding.md R73). -/
theorem assemble_toNat (arg : BitVec 64) (slen : BitVec 8) (rsv op : BitVec 4) :
    (assemble arg slen rsv op).toNat = arg.toNat * 65536 + slen.toNat * 256 + rsv.toNat * 16 + op.toNat := by
  have h2 := slen.isLt
  have h3 := rsv.isLt
  have h4 := op.isLt
  simp only [assemble, BitVec.toNat_append]
  rw [← Nat.shiftLeft_add_eq_or_of_lt h2, ← Nat.shiftLeft_add_eq_or_of_lt h3, ← Nat.shiftLeft_add_eq_or_of_lt h4]
  simp only [Nat.shiftLeft_eq]
  omega

/-- Whatever stands above them, the two low fields read back. -/
theorem low_fields (arg : BitVec 64) (slen : BitVec 8) (rsv op : BitVec 4) :
    opField (assemble arg slen rsv op) = op ∧ rsvField (assemble arg slen rsv op) = rsv := by
  have h := assemble_toNat arg slen rsv op
  have h3 := rsv.isLt
  have h4 := op.isLt
  constructor <;> refine BitVec.eq_of_toNat_eq ?_ <;>
    simp only [opField, rsvField, BitVec.extractLsb'_toNat, h, Nat.shiftRight_eq_div_pow] <;> omega

theorem nop : Statement .nop := low_fields _ _ _ _

theorem seed (slen : Nat) (seed : Word) : Statement (.seed slen seed) := low_fields _ _ _ _

theorem fill (len : Nat) : Statement (.fill len) := low_fields _ _ _ _

theorem release : Statement .release := low_fields _ _ _ _

end Sys2Proof.Laws.FixedFields
end

