-- ==== Sys2Proof/Tests/Slice0.lean ====
section
/-! SUPPORT. The model's own tests: expected results are the numbers printed in spec/95_test_vectors.md (V<n>) and in the
section files, under the reference configurations; and a witness for the hypotheses of each statement. -/

namespace Sys2Proof.Tests

open Sys2Proof Sys2Proof.Machine

/-! WellFormed: an ill-formed term for each check. -/

theorem test_wellFormed_refuses_slen_256 : (Instr.seed 256 0).wellFormed = false := by decide
theorem test_wellFormed_refuses_len_two_pow_64 : (Instr.fill 18446744073709551616).wellFormed = false := by decide
theorem test_wellFormed_accepts_limits :
    (Instr.seed 255 0).wellFormed = true ∧ (Instr.fill 18446744073709551615).wellFormed = true := by decide

/-! Decoding: words written out from 30_encoding.md R61 to R65 (95_test_vectors.md section 2). -/

theorem test_decode_nop : decode 0x00000000000000000000 = .ok .nop := by decide
theorem test_decode_seed : decode 0x0123456789ABCDEF4001 = .ok (.seed 64 0x0123456789ABCDEF) := by decide
theorem test_decode_seed_slen_255 : decode 0x0123456789ABCDEFFF01 = .ok (.seed 255 0x0123456789ABCDEF) := by decide
theorem test_decode_fill_longest : decode 0xFFFFFFFFFFFFFFFF0002 = .ok (.fill 18446744073709551615) := by decide
theorem test_decode_release : decode 0x00000000000000000003 = .ok .release := by decide
theorem test_decode_rejects_op_4 : decode 0x00000000000000000004 = .error .reservedOp := by decide
theorem test_decode_rejects_op_15 : decode 0x0000000000000000000F = .error .reservedOp := by decide
theorem test_decode_rejects_rsv : decode 0x0123456789ABCDEF0A11 = .error .rsvNotZero := by decide
theorem test_decode_rejects_fill_slen : decode 0x00000000000000080102 = .error .slenNotZero := by decide
theorem test_decode_rejects_release_slen : decode 0x00000000000000000103 = .error .slenNotZero := by decide
theorem test_decode_rejects_nop_arg : decode 0x00000000000000010000 = .error .argNotZero := by decide
theorem test_decodeTableWord : decodeTableWord 80 0x000000000000000C0002 = some (.fill 12) := by decide

/-! Text (30_encoding.md R71, R72). -/

theorem test_text_fill_hex_comment :
    readText ['F', 'I', 'L', 'L', ' ', ' ', '0', 'x', '1', '_', 'F', ' ', ';', 'x'] = some (.fill 31) := by decide
theorem test_text_next : readText ['N', 'E', 'X', 'T'] = some (.fill 1) := by decide
theorem test_text_seed :
    readText ['S', 'E', 'E', 'D', ' ', '6', '4', ',', ' ', '5'] = some (.seed 64 5) := by decide

/-! SeedExpander (V10, V20a, V21, V22, V26, V27). -/

theorem test_refMix : Config.refMix 0x9E3779B97F4A7C15 = 0xE220A8397B1DCDAF ∧
    Config.refMix 1 = 0x5692161D100B05E5 ∧ Config.refMix 0 = 0 := by decide
theorem test_refLaneConst : Config.refLaneConst 7 = 0xF1BBCDCBFA53E0A8 := by decide
theorem test_expand_ref4 : List.ofFn (expand .ref4 0x0123456789ABCDEF) =
    [0x8E3980323F3DCE39, 0xA33BA70B29333AB3, 0x5BED6DD3DC00F260, 0x1A8FED80C5952760] := by decide
theorem test_expand_keeps_one_zero_lane : List.ofFn (expand .ref4 0x3C6EF372FE94F82A) =
    [0x9C3A7F823C816066, 0x0000000000000000, 0x17173322E965A4F4, 0xC0803F54D486ADEA] := by decide
theorem test_expand_fallback : List.ofFn (expand .testZ 0x55) =
    [0x9E3779B97F4A7C15, 0x3C6EF372FE94F82A, 0xDAA66D2C7DDF743F, 0x78DDE6E5FD29F054] := by decide

/-! RoundEngine (V31 to V43, V45, V47, V49, V59). -/

/-- REF4 with other shift amounts, all three the same. -/
def shifts (k : Nat) (h : 1 ≤ k ∧ k ≤ 63) : Config :=
  { Config.ref4 with a := k, b := k, c := k, a_range := h, b_range := h, c_range := h }

/-- REF4 with another lane offset. -/
def offset (r : Nat) (h : 1 ≤ r ∧ r ≤ 3) : Config := { Config.ref4 with R := r, R_range := h }

/-- A block of two lanes (V49, V88). -/
def twoLanes : Config where
  N := 2
  a := 13
  b := 7
  c := 17
  R := 1
  mix := Config.refMix
  laneConst := fun i => Config.refLaneConst i
  fallback := fun i => Config.refLaneConst i
  two_le_N := by decide
  a_range := by decide
  b_range := by decide
  c_range := by decide
  R_range := by decide
  fallback_nonzero := ⟨0, by decide⟩

theorem test_xsLane_ref4 : xsLane .ref4 1 = 0x0000000040822041 ∧
    xsLane .ref4 0x8000000000000000 = 0x8100000000000000 ∧
    xsLane .ref4 0xFFFFFFFFFFFFFFFF = 0x000000003F801FC0 ∧
    xsLane .ref4 0x0123456789ABCDEF = 0x3F2800D6569E01B4 := by decide
theorem test_xsLane_ref8 : xsLane .ref8 0x0123456789ABCDEF = 0x70F571FC3EE9BD2C := by decide
theorem test_xsLane_smallest_shifts : xsLane (shifts 1 (by decide)) 0xFFFFFFFFFFFFFFFF = 3 := by decide
theorem test_xsLane_largest_shifts : xsLane (shifts 63 (by decide)) 1 = 0x8000000000000000 ∧
    xsLane (shifts 63 (by decide)) 0x8000000000000000 = 1 := by decide
theorem test_combine_half : List.ofFn (combine (offset 2 (by decide)) fun i => BitVec.ofNat 64 (i.val + 1)) =
    [4, 6, 4, 6] := by decide
theorem test_combine_offset_3 : List.ofFn (combine (offset 3 (by decide)) fun i => BitVec.ofNat 64 (i.val + 1)) =
    [5, 3, 5, 7] := by decide
theorem test_combine_two_lanes :
    List.ofFn (combine twoLanes fun i => if i.val = 0 then 0xFFFFFFFFFFFFFFFF else 2) = [1, 1] := by decide
theorem test_stream_ref8 : stream .ref8 (expand .ref8 0x0123456789ABCDEF) 5 = 0x62A3DDE16061AFBD ∧
    stream .ref8 (expand .ref8 0x0123456789ABCDEF) 15 = 0xBDBFDCCCE76B9D72 := by decide
theorem test_stream_ref4 : stream .ref4 (expand .ref4 0x0123456789ABCDEF) 11 = 0xF17CADC68D5F0389 := by decide

/-! One step of a REF4 block on a small state (95_test_vectors.md sections 5 and 7). -/

/-- A seeded state with these lanes and held words, about to be offered `cw`. -/
def seededWith (ws cur : List Word) (cw : CommandWord) : State :=
  { State.reset with seeded := true, lanes := .held ws, cur := cur, inputs := [.command cw] }

/-- What a step gives, seen through `f`; `none` where it stops. -/
def seen {α : Type} (f : State → α) (o : Host.Outcome State Fault Refusal) : Option α :=
  match o with
  | .next t => some (f t)
  | .fault _ => none
  | .refused _ => none

/-- P3 line 13. -/
theorem test_nop : seen (fun t => (t.traffic, t.seeded)) (stepOn .ref4 (seededWith [1, 2, 3, 4] [5] 0)) =
    some ([.command 0, .response 0], true) := by decide

/-- V83, V84: 63 bits are too few, and the old Generator stays. -/
theorem test_seed_63 : seen (fun t => (t.traffic, t.lanes, t.cur))
    (stepOn .ref4 (seededWith [1, 2, 3, 4] [5] 0x0123456789ABCDEF3F01)) =
    some ([.command 0x0123456789ABCDEF3F01, .response 1], .held [1, 2, 3, 4], [5]) := by decide

/-- V85: re-seeding discards the held words. -/
theorem test_seed_64 : seen (fun t => (t.seeded, t.lanes, t.cur))
    (stepOn .ref4 (seededWith [1, 2, 3, 4] [5] 0x0123456789ABCDEF4001)) =
    some (true, .held [0x8E3980323F3DCE39, 0xA33BA70B29333AB3, 0x5BED6DD3DC00F260, 0x1A8FED80C5952760], []) := by
  decide

/-- P2, third command: phase 1 and phase 3 in one FILL. -/
theorem test_fill_2 : seen (fun t => (t.traffic, t.lanes, t.cur))
    (stepOn .ref4 (seededWith
      [0xCFF7E3B41A3D1BE5, 0x39275E5A34F59006, 0x874573EFB2C06B84, 0xF34181AFAFE7D52E] [0xC3396563CA24F113] 0x20002)) =
    some ([.command 0x20002, .dstWrite 0 0xC3396563CA24F113, .dstWrite 1 0x4A26BD58A9CBF338, .response 0],
      .held [0xF782DE542F173892, 0x52A3DF047AB4BAA6, 0xC0135523C4698A53, 0xFB857B6AD1E09104],
      [0x12B734283F1E44F9, 0xBB98D08E964A1B57, 0xF30859BF00F7C996]) := by decide

/-- P2, fourth command: phase 1 and phase 2. -/
theorem test_fill_7 : seen (fun t => (t.dst, t.lanes, t.cur))
    (stepOn .ref4 (seededWith
      [0xF782DE542F173892, 0x52A3DF047AB4BAA6, 0xC0135523C4698A53, 0xFB857B6AD1E09104]
      [0x12B734283F1E44F9, 0xBB98D08E964A1B57, 0xF30859BF00F7C996] 0x70002)) =
    some ([(0, 0x12B734283F1E44F9), (1, 0xBB98D08E964A1B57), (2, 0xF30859BF00F7C996), (3, 0xC008C6B07DF12CB6),
        (4, 0xB0FE58EC306567DA), (5, 0xE27240023FD33EAD), (6, 0xF17CADC68D5F0389)],
      .held [0x3B13802B41537263, 0x84F546853C9DBA53, 0x2C091266F3C7AD87, 0xB6692D9B4C0B9126], []) := by decide

/-- V86, and V82 for the refusal of a FILL. -/
theorem test_release : seen (fun t => (t.seeded, t.lanes, t.cur, t.traffic))
    (stepOn .ref4 (seededWith [1, 2, 3, 4] [5] 3)) =
    some (false, .noValue, [], [.command 3, .response 0]) := by decide
theorem test_fill_unseeded : seen (fun t => t.traffic) (step (State.reset.withFetchWord 80 2)) =
    some [.command 2, .response 2] := by decide

/-- V18: an illegal word is not judged as a SEED (60_exceptions.md R156). -/
theorem test_illegal_before_insufficient : seen (fun t => t.traffic)
    (step (State.reset.withFetchWord 80 0x0123456789ABCDEF0A11)) =
    some [.command 0x0123456789ABCDEF0A11, .response 3] := by decide

/-- 70_reset_and_hazards.md R184: one of two writes done, no response, no Generator. -/
theorem test_reset_cuts_fill : seen (fun t => (t.traffic, t.seeded))
    (stepOn .ref4 { seededWith [1, 2, 3, 4] [5, 6, 7] 0 with inputs := [.commandCutByReset 0x20002 1] }) =
    some ([.command 0x20002, .dstWrite 0 5], false) := by decide

/-- 20_memory.md R40: index 0 of one FILL and index 0 of the next are unrelated where the host attaches another
destination. -/
theorem test_attach : seen (fun t => (t.dst.read 0, t.dst.read 7, t.traffic))
    (stepOn .ref4 { seededWith [1, 2, 3, 4] [5] 0 with dst := [(0, 9)], inputs := [.attach [(7, 1), (7, 2)]] }) =
    some (none, some 2, []) := by decide

/-! Witnesses: for each statement with hypotheses, a state and operands that meet them together. -/

/-- The block directly after `NEW 0`. -/
def fresh (ins : List Input) : State :=
  { State.reset with
    seeded := true, lanes := .held (List.ofFn (expand Config.block 0)), inputs := ins,
    ghost := some { s0 := List.ofFn (expand Config.block 0), rounds := 0, delivered := 0 } }

/-- The block after `NEW 0; FILL (N-1)`: one word held. -/
def midRound (ins : List Input) : State :=
  { State.reset with
    seeded := true, lanes := .held (List.ofFn (xsVecIter Config.block 1 (expand Config.block 0))),
    cur := [stream Config.block (expand Config.block 0) (Config.block.N - 1)], inputs := ins,
    ghost := some { s0 := List.ofFn (expand Config.block 0), rounds := 1, delivered := Config.block.N - 1 } }

theorem witness_Tracks_fresh (ins : List Input) : Tracks Config.block (fresh ins) 0 0 0 :=
  ⟨rfl, rfl, rfl, rfl, Config.block.N_pos, rfl⟩

theorem witness_Tracks_midRound (ins : List Input) : Tracks Config.block (midRound ins) 0 1 (Config.block.N - 1) := by
  have h := Config.block.two_le_N
  refine ⟨rfl, rfl, rfl, ?_, ?_, rfl⟩
  · simp only [midRound, List.length_singleton]; omega
  · simp only [midRound, List.length_singleton]; omega

theorem witness_Ready_fresh (ins : List Input) : Ready Config.block (fresh ins) (expand Config.block 0) := ⟨rfl, rfl⟩

theorem witness_Inv_fresh (ins : List Input) : (fresh ins).Inv Config.block :=
  ⟨List.Pairwise.nil, fun h => (by cases h), fun _ => ⟨0, 0, 0, witness_Tracks_fresh ins⟩⟩

theorem witness_Inv_midRound (ins : List Input) : (midRound ins).Inv Config.block :=
  ⟨List.Pairwise.nil, fun h => (by cases h), fun _ => ⟨0, 1, _, witness_Tracks_midRound ins⟩⟩

theorem witness_Inv_reset (ins : List Input) : (State.reset.setInputs ins).Inv Config.block :=
  ⟨List.Pairwise.nil, fun _ => ⟨rfl, rfl, rfl⟩, fun h => by cases h⟩

theorem witness_DecodeOfEncodeIsIdentity : (Instr.seed 255 1).WellFormed ∧ (Instr.fill 18446744073709551615).WellFormed := by
  decide
theorem witness_EncodeOfDecodeIsIdentity : decode 0x0123456789ABCDEF4001 = .ok (.seed 64 0x0123456789ABCDEF) := by decide
theorem witness_IllegalWordsAreThoseOfR67 :
    (fresh [.command 4]).inputs = .command 4 :: [] ∧ decode 4 = .error .reservedOp ∧
    decode 0x10 = .error .rsvNotZero ∧ decode 0x102 = .error .slenNotZero ∧ decode 0x10003 = .error .argNotZero := by
  refine ⟨rfl, ?_⟩; decide
theorem witness_StepRunsDecodedCommand :
    (fresh [.command 0x10002]).inputs = .command 0x10002 :: [] ∧ decode 0x10002 = .ok (.fill 1) :=
  ⟨rfl, by decide⟩
theorem witness_IdleStepChangesNothing : (fresh []).inputs = [] := rfl
theorem witness_ResetEventUnmakesGenerator :
    (fresh [.reset]).inputs = .reset :: [] ∧ ∃ t, step (fresh [.commandCutByReset 0x10002 1]) = .next t := by
  refine ⟨rfl, ?_⟩
  have h := fillOn_ready (cfg := Config.block) 1 (s := (fresh []).accept 0x10002) ⟨rfl, rfl⟩
  have hr : runWord exec 0x10002 (fresh []) = _ :=
    (runWord_ok exec (show decode 0x10002 = .ok (.fill 1) by decide) _).trans h
  exact ⟨_, cutWord_of_traffic exec hr (State.filled_traffic _ _ _) 1⟩
theorem witness_ResetDuringCommandLeavesPrefix :
    (fresh [.commandCutByReset 0x20002 1]).Inv Config.block ∧
    (fresh [.commandCutByReset 0x20002 1]).inputs = .commandCutByReset 0x20002 1 :: [] ∧
    Tracks Config.block (fresh [.commandCutByReset 0x20002 1]) 0 0 0 ∧
    (fresh [.command 0x20002]).Inv Config.block ∧ (fresh [.command 0x20002]).inputs = .command 0x20002 :: [] :=
  ⟨witness_Inv_fresh _, rfl, witness_Tracks_fresh _, witness_Inv_fresh _, rfl⟩
theorem witness_EveryCommandIsAnsweredOnce :
    (fresh [.command 0x20002]).Inv Config.block ∧ (fresh [.command 0x20002]).inputs = .command 0x20002 :: [] :=
  ⟨witness_Inv_fresh _, rfl⟩
theorem witness_ErrorsChangeNothing :
    responseTo 0x3F01 true = .insufficientSeed ∧ responseTo 0x2 false = .notSeeded ∧
    responseTo 0x12 true = .illegalCommand := by decide
theorem witness_SeededBlockHasTwoErrors :
    (fresh [.command 0x3F01]).Inv Config.block ∧ (fresh [.command 0x3F01]).seeded = true ∧
    decode 0x3F01 = .ok (.seed 63 0) ∧ decode 0x12 = .error .rsvNotZero :=
  ⟨witness_Inv_fresh _, rfl, by decide, by decide⟩
theorem witness_TextReadsBack : (Instr.seed 255 0xFFFFFFFFFFFFFFFF).WellFormed ∧ (Instr.fill 0).WellFormed := by decide
theorem witness_NopOnlyRespondsOk : (0x10 : CommandWord).toNat % 16 = 0 ∧ (0x10 : CommandWord) ≠ 0 := by decide
theorem witness_ReleaseIsIdempotent : State.reset.Inv Config.block ∧ State.reset.seeded = false :=
  ⟨witness_Inv_reset [], rfl⟩
theorem witness_SeedBuildsGenerator : 64 ≤ 64 ∧ 63 < 64 ∧ 255 < 256 := by decide
theorem witness_ReseedEqualsSeedAfterReset : 64 ≤ 64 := by decide
theorem witness_ResetStateHoldsNoGenerator : 64 ≤ 64 := by decide
theorem witness_SeedRestartsStreamFromAnyState : 64 ≤ 255 := by decide
theorem witness_ExpandIsMixOrFallback :
    (∃ i, Config.ref4.mix (0 ^^^ Config.ref4.laneConst i) ≠ 0) ∧
    ∀ i, Config.testZ.mix (0 ^^^ Config.testZ.laneConst i) = 0 :=
  ⟨⟨⟨0, by decide⟩, by decide⟩, fun _ => rfl⟩
theorem witness_LanesNeverAllZero :
    (¬ AllZero (expand Config.ref4 0)) ∧ AllZero (cfg := Config.ref4) (fun _ => 0) := ⟨by decide, fun _ => rfl⟩
theorem witness_ZeroLaneStaysZero :
    expand Config.ref4 0x3C6EF372FE94F82A ⟨1, by decide⟩ = 0 ∧
    partner Config.ref4 ⟨0, by decide⟩ = ⟨1, by decide⟩ ∧
    (0x8000000000000000 : Word) = BitVec.ofNat 64 (2 ^ 64 - (0x8000000000000000 : Word).toNat) ∧
    (0 : Word) = BitVec.ofNat 64 (2 ^ 64 - (0 : Word).toNat) := by decide
theorem witness_PartnerIsFixedPointFreePermutation :
    twoLanes.N = 2 ∧ (offset 2 (by decide)).N = 2 * (offset 2 (by decide)).R ∧
    (⟨2, by decide⟩ : Fin 4).val = (⟨0, by decide⟩ : Fin 4).val + (offset 2 (by decide)).R := by decide
theorem witness_FirstWordComesFromNewState : 0 < Config.block.N ∧ Config.block.R < Config.block.N ∧ 64 ≤ 64 := by
  have h1 := Config.block.two_le_N
  have h2 := Config.block.R_range
  omega
theorem witness_FillWithoutGeneratorIsRefused : State.reset.seeded = false ∧
    ∃ t, exec (.fill 0) State.reset = .next t ∧ t.traffic.getLast? = some (.response 0x2) := ⟨rfl, _, rfl, rfl⟩
theorem witness_FillOnReadyBlockCompletes : Ready Config.block (fresh []) (expand Config.block 0) := witness_Ready_fresh []
theorem witness_FillZeroChangesNothing :
    Ready Config.block (fresh []) (expand Config.block 0) ∧ State.reset.seeded = false := ⟨witness_Ready_fresh [], rfl⟩
theorem witness_FillIsContinuous :
    Ready Config.block (midRound []) (xsVecIter Config.block 1 (expand Config.block 0)) :=
  (witness_Tracks_midRound []).ready
theorem witness_FillClosedForm :
    Tracks Config.block (fresh []) 0 0 0 ∧ Tracks Config.block (midRound []) 0 1 (Config.block.N - 1) ∧
    1 ≤ (midRound []).cur.length := ⟨witness_Tracks_fresh [], witness_Tracks_midRound [], Nat.le_refl 1⟩
theorem witness_FillMultipleOfLaneCount :
    Tracks Config.block (midRound []) 0 1 (Config.block.N - 1) ∧ Config.block.N ∣ 0 ∧
    Config.block.N ∣ 2 * Config.block.N := ⟨witness_Tracks_midRound [], ⟨0, rfl⟩, ⟨2, Nat.mul_comm _ _⟩⟩
theorem witness_RoundsRunByFill :
    Ready Config.block (fresh []) (expand Config.block 0) ∧
    Tracks Config.block (midRound []) 0 1 (Config.block.N - 1) := ⟨witness_Ready_fresh [], witness_Tracks_midRound []⟩
theorem witness_HostReadsDeliveredWords :
    Tracks Config.block (midRound []) 0 1 (Config.block.N - 1) ∧ 0 < 1 ∧ 1 ≤ 1 :=
  ⟨witness_Tracks_midRound [], by decide, by decide⟩
theorem witness_FillStopsOnlyOnLanesWithoutValue :
    ({ State.reset with seeded := true } : State).seeded = true ∧
    ∀ v : LaneVec Config.block, ({ State.reset with seeded := true } : State).lanes ≠ .held (List.ofFn v) :=
  ⟨rfl, fun _ h => by cases h⟩
theorem witness_FillFrame : ∃ t, exec (.fill 1) (fresh []) = .next t :=
  ⟨_, fillOn_ready (cfg := Config.block) 1 (witness_Ready_fresh [])⟩
theorem witness_FillDrainsCursorFirst :
    Ready Config.block (midRound []) (xsVecIter Config.block 1 (expand Config.block 0)) ∧
    1 ≤ (midRound []).cur.length := ⟨⟨rfl, rfl⟩, Nat.le_refl 1⟩
theorem witness_FillBulkRoundsBypassCursor :
    Ready Config.block (fresh []) (expand Config.block 0) ∧ (fresh []).cur = [] := ⟨witness_Ready_fresh [], rfl⟩
/-- The working state of a FILL with nothing held and `n` words still to write. -/
def runLeft (n : Nat) : FillRun Config.block :=
  { lanes := expand Config.block 0, cur := [], d := 0, rem := n, writes := [], rounds := 0 }

theorem witness_FillPartialTailKeepsSuffix :
    Ready Config.block (fresh []) (expand Config.block 0) ∧ (fresh []).cur = [] ∧ 0 < 1 ∧ 1 < Config.block.N ∧
    (runLeft 0).rem = 0 ∧ 0 < (runLeft 1).rem ∧ (runLeft 1).rem < Config.block.N :=
  ⟨witness_Ready_fresh [], rfl, by decide, Config.block.two_le_N, rfl, by decide, Config.block.two_le_N⟩
theorem witness_MultiplexerSelectsLaneByPosition :
    Tracks Config.block (midRound []) 0 1 (Config.block.N - 1) ∧ 0 < 2 ∧ 0 < (midRound []).cur.length ∧ 1 < 2 :=
  ⟨witness_Tracks_midRound [], by decide, by decide, by decide⟩
theorem witness_RoundsRunOnlyOnEmptyCursor :
    (midRound []).cur.length < Config.block.N ∧ (∃ t, exec (.fill 2) (midRound []) = .next t) ∧
    0 < (drainCursor (runLeft 1)).rem ∧ 0 < (bulkRounds (drainCursor (runLeft 1))).rem := by
  refine ⟨(witness_Tracks_midRound []).bound,
    ⟨_, fillOn_ready (cfg := Config.block) 2 (witness_Tracks_midRound []).ready⟩, Nat.le_refl 1, ?_⟩
  rw [bulkRounds_rem, show (drainCursor (runLeft 1)).rem = 1 from rfl, Nat.mod_eq_of_lt Config.block.two_le_N]
  exact Nat.le_refl 1
theorem witness_FillIsRepeatedNext :
    Ready Config.block { fresh [] with cur := [5] } (expand Config.block 0) ∧
    ({ fresh [] with cur := [5] } : State).cur = 5 :: [] ∧
    Ready Config.block (fresh []) (expand Config.block 0) ∧ (fresh []).cur = [] :=
  ⟨⟨rfl, rfl⟩, rfl, witness_Ready_fresh [], rfl⟩
theorem witness_OnlyFillWritesDestination :
    (∀ len, Instr.nop ≠ .fill len) ∧ ∃ t, exec .nop (fresh []) = .next t := ⟨fun _ h => (by cases h), _, rfl⟩
theorem witness_OnlySeedAndRoundsWriteLanes : ∃ t, exec .release (fresh []) = .next t := ⟨_, rfl⟩
theorem witness_OnlyFillMutatesCursor : ∃ t, step (midRound [.command 3]) = .next t := ⟨_, rfl⟩
theorem witness_OnlySeedSetsAndReleaseClearsFlag :
    ∃ t u, step (State.reset.withFetchWord 80 0x4001) = .next t ∧ t.seeded = true ∧
      step (fresh [.command 3]) = .next u ∧ u.seeded = false := ⟨_, _, rfl, rfl, rfl, rfl⟩
theorem witness_StepKeepsInvariant :
    (midRound [.command 3]).Inv Config.block ∧ ∃ t, step (midRound [.command 3]) = .next t :=
  ⟨witness_Inv_midRound _, _, rfl⟩
theorem witness_StepCompletesUnderInvariant :
    State.reset.Inv Config.block ∧ (midRound [.commandCutByReset 0x20002 1]).Inv Config.block :=
  ⟨witness_Inv_reset [], witness_Inv_midRound _⟩
theorem witness_SeededLanesAreNotAllZero : (fresh []).Inv Config.block ∧ (fresh []).seeded = true :=
  ⟨witness_Inv_fresh [], rfl⟩
theorem witness_AttachedDestinationIsUnrelated :
    Tracks Config.block (midRound [.attach [(0, 1), (9, 2)]]) 0 1 (Config.block.N - 1) ∧
    (midRound [.attach [(0, 1), (9, 2)]]).inputs = .attach [(0, 1), (9, 2)] :: [] ∧ 0 < 1 ∧ ¬ 1 < 1 :=
  ⟨witness_Tracks_midRound _, rfl, by decide, by decide⟩
theorem witness_DestinationIsNeverRead : ∃ t, step (midRound [.attach [(0, 1)]]) = .next t := ⟨_, rfl⟩
theorem witness_CursorIsSuffixOfLastRound : (midRound []).Inv Config.block ∧ (midRound []).seeded = true :=
  ⟨witness_Inv_midRound [], rfl⟩

end Sys2Proof.Tests
end

section
/-! What a FILL writes on a block that stands at a position of a seed's stream, and that a SEED puts it at the start. -/

namespace Sys2Proof.Machine

variable {cfg : Config}

@[simp] theorem writesIn_asTransfers (ws : List (Nat × Word)) : writesIn (asTransfers ws) = ws :=
  writesIn_dstWrites ws

/-- The destination writes of a completed FILL: the first `len` of the held words and the outputs that follow them. -/
theorem newWrites_filled (len : Nat) (v : LaneVec cfg) (s : State) :
    newWrites s (s.filled cfg len v) =
      placeAt 0 ((s.cur ++ outputsOf cfg (roundsNeeded cfg s.cur.length len) v).take len) := by
  have htraffic := State.filled_traffic (cfg := cfg) len v s
  rw [List.append_assoc] at htraffic
  rw [newWrites_of_traffic htraffic]
  simp

/-- The cursor's words are the stream words from the block's position on (10_state.md R31). -/
theorem Tracks.cur_eq_streamFrom {s : State} {seed : Word} {r p : Nat} (h : Tracks cfg s seed r p) :
    s.cur = streamFrom cfg (expand cfg seed) p s.cur.length := h.words

/-- The held words followed by the outputs of the next `n` rounds run on along the stream without a gap, because the
cursor ends where round `r` ends (42_fill_stream_cursor.md R128). -/
theorem Tracks.cur_append_outputsOf {s : State} {seed : Word} {r p : Nat} (h : Tracks cfg s seed r p) (n : Nat) :
    s.cur ++ outputsOf cfg n (xsVecIter cfg r (expand cfg seed)) =
      streamFrom cfg (expand cfg seed) p (s.cur.length + cfg.N * n) := by
  rw [outputsOf_eq_streamFrom, streamFrom_add, h.count, ← h.cur_eq_streamFrom]

/-- A FILL at stream position `p` writes the next `len` stream words (42_fill_stream_cursor.md R130). -/
theorem Tracks.newWrites_eq_streamWrites {s : State} {seed : Word} {r p : Nat} (h : Tracks cfg s seed r p) (len : Nat) :
    newWrites s (s.filled cfg len (xsVecIter cfg r (expand cfg seed))) =
      streamWrites cfg (expand cfg seed) p len := by
  have hlen : len ≤ s.cur.length + cfg.N * roundsNeeded cfg s.cur.length len := by
    rw [Nat.mul_comm]
    exact (filled_words cfg s.cur.length len).1
  rw [newWrites_filled, h.cur_append_outputsOf, streamFrom_take _ _ _ _ _ hlen, placeAt_streamFrom]

/-- A SEED with enough declared bits completes in every state and puts the block at the start of the seed's stream
(40_seed_expander.md R86, R89). -/
theorem seedOn_tracks (cfg : Config) {slen : Nat} (h : 64 ≤ slen) (seed : Word) (s : State) :
    ∃ t, seedOn cfg slen seed s = .next t ∧ Tracks cfg t seed 0 0 :=
  ⟨_, seedOn_sufficient cfg h seed s,
    { seeded := rfl, lanes := rfl, ghost := rfl, count := rfl, bound := cfg.N_pos, words := rfl }⟩

/-- Settles O45: SEED puts the block at position 0 of its seed's stream from any state, and a FILL at a position
writes the stream words from there on. -/
theorem seedRestartsStreamFromAnyState : Obligations.SeedRestartsStreamFromAnyState := by
  intro s slen seed len hslen
  obtain ⟨t, hseed, htracks⟩ := seedOn_tracks Config.block hslen seed s
  exact ⟨t, _, hseed, fillOn_ready len htracks.ready, htracks.newWrites_eq_streamWrites len⟩

end Sys2Proof.Machine
end

section
/-! A shift by at least one place followed by the exclusive or with the word itself loses nothing but zero, so no round
makes a lane zero (41_round_engine.md R109, R110, R111). -/

namespace Sys2Proof.Machine

/-- A word equal to itself shifted left is zero: each bit is one further down, and nothing enters at the bottom. -/
theorem xor_shiftLeft_eq_zero_iff {w k : Nat} (hk : 1 ≤ k) (x : BitVec w) : x ^^^ (x <<< k) = 0#w ↔ x = 0#w := by
  rw [BitVec.xor_eq_zero_iff]
  refine ⟨fun h => BitVec.eq_of_getLsbD_eq fun i _ => ?_, fun h => by simp [h]⟩
  rw [BitVec.getLsbD_zero]
  induction i using Nat.strong_induction_on with
  | _ i ih =>
    rw [h, BitVec.getLsbD_shiftLeft]
    rcases Nat.lt_or_ge i k with hik | hik
    · simp [hik]
    · simp [ih (i - k) (by omega) (by omega)]

/-- A word equal to itself shifted right is zero: its value would equal a proper quotient of itself. -/
theorem xor_ushiftRight_eq_zero_iff {w k : Nat} (hk : 1 ≤ k) (x : BitVec w) : x ^^^ (x >>> k) = 0#w ↔ x = 0#w := by
  rw [BitVec.xor_eq_zero_iff]
  refine ⟨fun h => ?_, fun h => by simp [h]⟩
  have hquot : x.toNat = x.toNat / 2 ^ k := by
    conv_lhs => rw [h, BitVec.toNat_ushiftRight, Nat.shiftRight_eq_div_pow]
  rcases Nat.eq_zero_or_pos x.toNat with hzero | hpos
  · exact BitVec.eq_of_toNat_eq hzero
  · have hlt := Nat.div_lt_self hpos (Nat.one_lt_two_pow (Nat.one_le_iff_ne_zero.1 hk))
    omega

variable {cfg : Config}

/-- The zero kernel of `XsLane` (41_round_engine.md R110). -/
@[simp] theorem xsLane_eq_zero_iff (x : Word) : xsLane cfg x = 0#64 ↔ x = 0#64 := by
  obtain ⟨ha, -⟩ := cfg.a_range
  obtain ⟨hb, -⟩ := cfg.b_range
  obtain ⟨hc, -⟩ := cfg.c_range
  simp only [xsLane]
  rw [xor_shiftLeft_eq_zero_iff hc, xor_ushiftRight_eq_zero_iff hb, xor_shiftLeft_eq_zero_iff ha]

/-- Any number of rounds keeps which lanes are zero. -/
@[simp] theorem xsVecIter_eq_zero_iff (r : Nat) (v : LaneVec cfg) (i : Fin cfg.N) :
    xsVecIter cfg r v i = 0#64 ↔ v i = 0#64 := by
  induction r with
  | zero => rfl
  | succ r ih => rw [xsVecIter_succ, xsVec, xsLane_eq_zero_iff, ih]

theorem allZero_xsVecIter_iff (r : Nat) (v : LaneVec cfg) : AllZero (xsVecIter cfg r v) ↔ AllZero v :=
  forall_congr' fun i => xsVecIter_eq_zero_iff r v i

/-- The expansion of a seed is never all zero, as the fallback is not (40_seed_expander.md R85). -/
theorem not_allZero_expand (cfg : Config) (seed : Word) : ¬ AllZero (expand cfg seed) := by
  unfold expand
  split
  case isTrue =>
    obtain ⟨i, hi⟩ := cfg.fallback_nonzero
    exact fun hzero => hi (hzero i)
  case isFalse hmix => exact hmix

end Sys2Proof.Machine
end

section
/-! What is held: at reset, while seeded, and which commands write the lanes (10_state.md). -/

namespace Sys2Proof.Machine

variable {cfg : Config}

/-- The cursor ends where the most recent round ends, so it is that round's last outputs; before the first round it is
empty (10_state.md R35). -/
theorem Tracks.cur_eq_drop_combine {s : State} {seed : Word} {r p : Nat} (h : Tracks cfg s seed r p) :
    s.cur = (List.ofFn (combine cfg (xsVecIter cfg r (expand cfg seed)))).drop (cfg.N - s.cur.length) := by
  have hcount := h.count
  have hbound := h.bound
  cases r with
  | zero =>
    have hempty : s.cur = [] := List.length_eq_zero_iff.1 (by omega)
    simp [hempty]
  | succ r =>
    have hstart : cfg.N * r + (cfg.N - s.cur.length) = p := by
      rw [Nat.mul_succ] at hcount
      omega
    rw [← streamFrom_round, streamFrom_drop _ _ _ _ _ (Nat.sub_le _ _), hstart, Nat.sub_sub_self hbound.le]
    exact h.cur_eq_streamFrom

/-- Without a Generator every command completes, and its response is its only transfer. -/
theorem execOn_unseeded (i : Instr) {s : State} (hs : s.seeded = false) :
    ∃ t rsp, execOn cfg i s = .next t ∧ t.traffic = s.traffic ++ [.response rsp] := by
  cases i with
  | nop => exact ⟨_, _, rfl, rfl⟩
  | release => exact ⟨_, _, rfl, rfl⟩
  | fill len => exact ⟨_, _, fillOn_unseeded cfg len hs, rfl⟩
  | seed slen seed =>
    rcases Nat.lt_or_ge slen 64 with hslen | hslen
    · exact ⟨_, _, seedOn_insufficient cfg hslen seed s, rfl⟩
    · exact ⟨_, _, seedOn_sufficient cfg hslen seed s, rfl⟩

/-- Without a Generator every command word, legal or not, is accepted and answered. -/
theorem runWord_unseeded (cw : CommandWord) {s : State} (hs : s.seeded = false) :
    ∃ t rsp, runWord (execOn cfg) cw s = .next t ∧ t.traffic = s.traffic ++ [.command cw, .response rsp] := by
  cases hdecode : decode cw with
  | error e => exact ⟨_, _, runWord_error _ hdecode s, List.append_assoc ..⟩
  | ok i =>
    obtain ⟨t, rsp, hexec, htraffic⟩ := execOn_unseeded (cfg := cfg) i (s := s.accept cw) hs
    exact ⟨t, rsp, (runWord_ok _ hdecode s).trans hexec, htraffic.trans (List.append_assoc ..)⟩

/-- Settles O46, command by command: errors and NOP leave the lanes, and each of the others has its own disjunct. -/
theorem onlySeedAndRoundsWriteLanes : Obligations.OnlySeedAndRoundsWriteLanes := by
  intro i s t h
  rw [exec_eq_execOn] at h
  cases i with
  | nop =>
    cases h
    exact .inl rfl
  | release =>
    cases h
    exact .inr (.inr (.inr ⟨rfl, rfl⟩))
  | seed slen seed =>
    rcases Nat.lt_or_ge slen 64 with hslen | hslen
    · rw [execOn, seedOn_insufficient _ hslen] at h
      cases h
      exact .inl rfl
    · rw [execOn, seedOn_sufficient _ hslen] at h
      cases h
      exact .inr (.inl ⟨slen, seed, rfl, hslen, rfl⟩)
  | fill len =>
    rw [execOn] at h
    rcases fillOn_cases (cfg := Config.block) len s with ⟨_, hf⟩ | ⟨_, _, hf⟩ | ⟨v, hready, hf⟩
    · cases hf.symm.trans h
      exact .inl rfl
    · cases hf.symm.trans h
    · cases hf.symm.trans h
      exact .inr (.inr (.inl ⟨len, v, _, rfl, hready, State.filled_lanes len v s⟩))

/-- Settles O54: a seeded block's lanes are some rounds on from an expansion, which is not all zero. -/
theorem seededLanesAreNotAllZero : Obligations.SeededLanesAreNotAllZero := by
  intro s hinv hseeded
  obtain ⟨seed, r, p, htracks⟩ := hinv.seeded hseeded
  refine ⟨_, htracks.lanes, ?_⟩
  rw [allZero_xsVecIter_iff]
  exact not_allZero_expand Config.block seed

/-- Settles O55: a seeded block stands at a position of a stream, where the cursor is the end of the last round. -/
theorem cursorIsSuffixOfLastRound : Obligations.CursorIsSuffixOfLastRound := by
  intro s hinv hseeded
  obtain ⟨seed, r, p, htracks⟩ := hinv.seeded hseeded
  exact ⟨_, htracks.lanes, htracks.bound, htracks.cur_eq_drop_combine⟩

/-- Settles O9: the block is unseeded at reset, so it answers every word, and a SEED starts its seed's stream. -/
theorem resetStateHoldsNoGenerator : Obligations.ResetStateHoldsNoGenerator := by
  refine ⟨rfl, rfl, rfl, rfl, fun cw => ?_, fun slen seed hslen => ?_⟩
  · rw [step_eq_stepOn]
    exact runWord_unseeded cw (s := State.reset) rfl
  · obtain ⟨t, hseed, htracks⟩ := seedOn_tracks Config.block hslen seed State.reset
    exact ⟨t, hseed, htracks.ghost⟩

end Sys2Proof.Machine
end

section
/-! What a host finds in the destination after a FILL (20_memory.md R42, R48). -/

namespace Sys2Proof.Machine

variable {cfg : Config}

/-- A completed FILL changes the destination by the writes it performs and by nothing else (20_memory.md R41). -/
theorem State.filled_dst_eq_writeAll_newWrites (len : Nat) (v : LaneVec cfg) (s : State) :
    (s.filled cfg len v).dst = s.dst.writeAll (newWrites s (s.filled cfg len v)) := by
  rw [newWrites_filled, State.filled_dst]

/-- Stream words written from index 0 on read back below `len`, and every other index reads as before. -/
theorem Memory.read_writeAll_streamWrites (s0 : LaneVec cfg) (p len : Nat) (m : Memory) (k : Nat) :
    Memory.read k (m.writeAll (streamWrites cfg s0 p len)) =
      if k < len then some (stream cfg s0 (p + k)) else m.read k := by
  rw [← placeAt_streamFrom, Memory.read_writeAll_placeAt]
  simp [streamFrom_getElem]

/-- A FILL at stream position `p` leaves the next `len` stream words in the destination (42_fill_stream_cursor.md R130)
and the words outside them as they were. -/
theorem Tracks.read_filled_dst {s : State} {seed : Word} {r p : Nat} (h : Tracks cfg s seed r p) (len k : Nat) :
    (s.filled cfg len (xsVecIter cfg r (expand cfg seed))).dst.read k =
      if k < len then some (stream cfg (expand cfg seed) (p + k)) else s.dst.read k := by
  rw [State.filled_dst_eq_writeAll_newWrites, h.newWrites_eq_streamWrites, Memory.read_writeAll_streamWrites]

/-- Settles O43: a FILL on a block at a stream position completes, and what it leaves in the destination at an index is
decided by whether the index is below `len`. -/
theorem hostReadsDeliveredWords : Obligations.HostReadsDeliveredWords := by
  intro s seed r p len htracks
  refine ⟨_, fillOn_ready len htracks.ready, fun k hk => ?_, fun k hk => ?_⟩
  · rw [htracks.read_filled_dst, if_pos hk]
  · rw [htracks.read_filled_dst, if_neg (Nat.not_lt.2 hk)]

end Sys2Proof.Machine
end

section
/-! The decoder in digits of the word's value (30_encoding.md R61 to R69): which words are legal, the row each of them
matches, and what a step does with an illegal one. -/

namespace Sys2Proof

open Machine

variable {cw : CommandWord}

/-- `CW[3:0]` is the lowest hexadecimal digit of the value (30_encoding.md R61). -/
theorem opField_eq_iff (op : BitVec 4) : opField cw = op ↔ cw.toNat % 16 = op.toNat := by
  simp [opField, ← BitVec.toNat_inj]

theorem rsvField_eq_iff (rsv : BitVec 4) : rsvField cw = rsv ↔ cw.toNat / 16 % 16 = rsv.toNat := by
  simp [rsvField, ← BitVec.toNat_inj, Nat.shiftRight_eq_div_pow]

theorem slenField_toNat : (slenField cw).toNat = cw.toNat / 256 % 256 := by
  simp [slenField, Nat.shiftRight_eq_div_pow]

theorem slenField_eq_iff (slen : BitVec 8) : slenField cw = slen ↔ cw.toNat / 256 % 256 = slen.toNat := by
  rw [← BitVec.toNat_inj, slenField_toNat]

/-- `CW[79:16]` is all of the value above its lowest four digits. -/
theorem argField_toNat : (argField cw).toNat = cw.toNat / 65536 := by
  have hcw := cw.isLt
  simp only [argField, BitVec.extractLsb'_toNat, Nat.shiftRight_eq_div_pow]
  omega

theorem argField_eq_iff (arg : BitVec 64) : argField cw = arg ↔ cw.toNat / 65536 = arg.toNat := by
  rw [← BitVec.toNat_inj, argField_toNat]

theorem argField_eq_ofNat : argField cw = BitVec.ofNat 64 (cw.toNat / 65536) := by
  rw [← argField_toNat, BitVec.ofNat_toNat, BitVec.setWidth_eq]

/-- Format Z (30_encoding.md R63). -/
theorem decodeZ_eq_ok_iff {i j : Instr} :
    decodeZ i cw = .ok j ↔ cw.toNat / 256 % 256 = 0 ∧ cw.toNat / 65536 = 0 ∧ j = i := by
  unfold decodeZ
  rw [eq_comm (a := j)]
  split_ifs with hslen harg
  · simp_all [slenField_eq_iff, argField_eq_iff]
  · simp_all [slenField_eq_iff, argField_eq_iff]
  · simp_all [slenField_eq_iff]

/-- Format S (30_encoding.md R64). -/
theorem decodeS_eq_ok_iff {j : Instr} :
    decodeS cw = .ok j ↔ j = .seed (cw.toNat / 256 % 256) (BitVec.ofNat 64 (cw.toNat / 65536)) := by
  rw [decodeS, slenField_toNat, argField_eq_ofNat, Except.ok.injEq, eq_comm]

/-- Format L (30_encoding.md R65). -/
theorem decodeL_eq_ok_iff {j : Instr} :
    decodeL cw = .ok j ↔ cw.toNat / 256 % 256 = 0 ∧ j = .fill (cw.toNat / 65536) := by
  unfold decodeL
  rw [eq_comm (a := j), argField_toNat]
  split_ifs with hslen <;> simp_all [slenField_eq_iff]

/-- All that the decoder accepts: one disjunct per row of the table (30_encoding.md R62, R69). -/
theorem decode_eq_ok_iff {i : Instr} : decode cw = .ok i ↔ cw.toNat / 16 % 16 = 0 ∧
    ((cw.toNat % 16 = 0 ∧ cw.toNat / 256 % 256 = 0 ∧ cw.toNat / 65536 = 0 ∧ i = .nop) ∨
      (cw.toNat % 16 = 1 ∧ i = .seed (cw.toNat / 256 % 256) (BitVec.ofNat 64 (cw.toNat / 65536))) ∨
      (cw.toNat % 16 = 2 ∧ cw.toNat / 256 % 256 = 0 ∧ i = .fill (cw.toNat / 65536)) ∨
      (cw.toNat % 16 = 3 ∧ cw.toNat / 256 % 256 = 0 ∧ cw.toNat / 65536 = 0 ∧ i = .release)) := by
  unfold decode
  split_ifs with hrsv hnop hseed hfill hrelease
  · simp_all [rsvField_eq_iff, opField_eq_iff, decodeZ_eq_ok_iff]
  · simp_all [rsvField_eq_iff, opField_eq_iff, decodeS_eq_ok_iff]
  · simp_all [rsvField_eq_iff, opField_eq_iff, decodeL_eq_ok_iff]
  · simp_all [rsvField_eq_iff, opField_eq_iff, decodeZ_eq_ok_iff]
  · simp_all [rsvField_eq_iff, opField_eq_iff]
  · simp_all [rsvField_eq_iff]

/-- NOP is the single word 0. -/
theorem decode_eq_ok_nop_iff : decode cw = .ok .nop ↔ cw = 0 := by
  simp only [decode_eq_ok_iff, reduceCtorEq, and_false, and_true, or_false, ← BitVec.toNat_inj,
    BitVec.ofNat_eq_ofNat, BitVec.toNat_ofNat]
  omega

/-- RELEASE is the single word 3. -/
theorem decode_eq_ok_release_iff : decode cw = .ok .release ↔ cw = 3 := by
  simp only [decode_eq_ok_iff, reduceCtorEq, and_false, and_true, false_or, ← BitVec.toNat_inj,
    BitVec.ofNat_eq_ofNat, BitVec.toNat_ofNat]
  omega

theorem decode_eq_ok_seed_iff {slen : Nat} {seed : Word} : decode cw = .ok (.seed slen seed) ↔
    cw.toNat % 256 = 1 ∧ slen = cw.toNat / 256 % 256 ∧ seed = BitVec.ofNat 64 (cw.toNat / 65536) := by
  have hlow : cw.toNat % 256 = 1 ↔ cw.toNat / 16 % 16 = 0 ∧ cw.toNat % 16 = 1 := by omega
  simp [decode_eq_ok_iff, hlow, and_assoc]

theorem decode_eq_ok_fill_iff {len : Nat} : decode cw = .ok (.fill len) ↔
    cw.toNat % 65536 = 2 ∧ len = cw.toNat / 65536 := by
  have hlow : cw.toNat % 65536 = 2 ↔
      cw.toNat / 16 % 16 = 0 ∧ cw.toNat % 16 = 2 ∧ cw.toNat / 256 % 256 = 0 := by omega
  simp [decode_eq_ok_iff, hlow, and_assoc]

/-- The legal words. -/
theorem exists_decode_eq_ok_iff : (∃ i, decode cw = .ok i) ↔ cw.toNat / 16 % 16 = 0 ∧
    ((cw.toNat % 16 = 0 ∧ cw.toNat / 256 % 256 = 0 ∧ cw.toNat / 65536 = 0) ∨ cw.toNat % 16 = 1 ∨
      (cw.toNat % 16 = 2 ∧ cw.toNat / 256 % 256 = 0) ∨
      (cw.toNat % 16 = 3 ∧ cw.toNat / 256 % 256 = 0 ∧ cw.toNat / 65536 = 0)) := by
  simp only [decode_eq_ok_iff, exists_and_left, exists_or, exists_eq, and_true]

/-- The decoder is total: a word is illegal where it is not legal (30_encoding.md R69). -/
theorem exists_decode_eq_error_iff : (∃ e, decode cw = .error e) ↔ ¬ ∃ i, decode cw = .ok i := by
  cases decode cw <;> simp

/-- A step with a command word offered runs that word. -/
theorem step_of_command {s : State} {rest : List Input} (h : s.inputs = .command cw :: rest) :
    step s = runWord exec cw (s.setInputs rest) := by
  simp [step, stepWith, h]

/-- An illegal word is taken off the inputs, recorded and answered (60_exceptions.md R153). -/
theorem step_of_illegal {s : State} {rest : List Input} {e : Illegal} (h : s.inputs = .command cw :: rest)
    (hillegal : decode cw = .error e) :
    step s = .next { s with inputs := rest, traffic := s.traffic ++ [.command cw, .response 0x3] } := by
  rw [step_of_command h, runWord_error _ hillegal]
  simp [State.raise_eq, State.accept_eq, State.setInputs, Response.code]

/-- Settles O3: the illegal words are the complement of the legal ones, which `decode_eq_ok_iff` lists row by row. -/
theorem illegalWordsAreThoseOfR67 : Obligations.IllegalWordsAreThoseOfR67 := by
  refine fun cw => ⟨?_, fun s rest ⟨e, hillegal⟩ h => step_of_illegal h hillegal, decode_eq_ok_nop_iff⟩
  rw [exists_decode_eq_error_iff, exists_decode_eq_ok_iff]
  omega

/-- A mask of the lowest `n` bits compares the value modulo `2 ^ n`. -/
theorem and_lowMask_eq_iff {w n : Nat} {x mask y : BitVec w} (hmask : mask.toNat = 2 ^ n - 1) :
    x &&& mask = y ↔ x.toNat % 2 ^ n = y.toNat := by
  rw [← BitVec.toNat_inj, BitVec.toNat_and, hmask, Nat.and_two_pow_sub_one_eq_mod]

/-- The mask of a whole command word hides nothing. -/
theorem and_fullMask : cw &&& 0xFFFFFFFFFFFFFFFFFFFF = cw := BitVec.and_allOnes

/-- Settles O4, row by row. -/
theorem tableRowsMatchUnderMask : Obligations.TableRowsMatchUnderMask := by
  refine fun cw => ⟨?_, ?_, fun slen seed => ?_, fun len => ?_⟩
  · rw [and_fullMask, decode_eq_ok_nop_iff]
  · rw [and_fullMask, decode_eq_ok_release_iff]
  · rw [and_lowMask_eq_iff (n := 8) rfl, decode_eq_ok_seed_iff]
    rfl
  · rw [and_lowMask_eq_iff (n := 16) rfl, decode_eq_ok_fill_iff]
    rfl

/-- Settles O5, by running the decoder and the encoder on the words of the table. -/
theorem workedWordsDecode : Obligations.WorkedWordsDecode := by
  unfold Obligations.WorkedWordsDecode
  decide

end Sys2Proof
end

section
/-! The SEED command and the expansion of its seed (40_seed_expander.md R84 to R89). -/

namespace Sys2Proof

open Machine

/-- Every SEED whose `slen` fits its 8 bits has a legal word, and the word reads back (30_encoding.md R64). -/
theorem decode_encode_seed {slen : Nat} (hslen : slen < 256) (seed : Word) :
    decode (encode (.seed slen seed)) = .ok (.seed slen seed) := by
  have hvalue : (encode (.seed slen seed)).toNat = seed.toNat * 65536 + slen * 256 + 1 := by
    rw [encode, Laws.FixedFields.assemble_toNat]
    simp [argOf, slenOf, opcodeOf, Nat.mod_eq_of_lt hslen]
  have harg : (encode (.seed slen seed)).toNat / 65536 = seed.toNat := by omega
  refine decode_eq_ok_seed_iff.2 ⟨by omega, by omega, ?_⟩
  rw [harg, BitVec.ofNat_toNat, BitVec.setWidth_eq]

end Sys2Proof

namespace Sys2Proof.Machine

/-- Settles O18: the two sides of `slen = 64` are the two branches of SEED, and its word reads back. -/
theorem seedBuildsGenerator : Obligations.SeedBuildsGenerator := fun s _ seed =>
  ⟨fun hslen => seedOn_sufficient Config.block hslen seed s,
    fun hslen => seedOn_insufficient Config.block hslen seed s,
    fun hslen => decode_encode_seed hslen seed⟩

/-- One mixed lane that is not zero is enough for all mixed lanes to be loaded (40_seed_expander.md R84). -/
theorem expand_eq_mixLanes {cfg : Config} {seed : Word} (h : ∃ i, mixLanes cfg seed i ≠ 0) :
    expand cfg seed = mixLanes cfg seed :=
  if_neg (not_forall.2 h)

/-- A seed whose mixed lanes are all zero expands to the fallback vector (40_seed_expander.md R85). -/
theorem expand_eq_fallback {cfg : Config} {seed : Word} (h : AllZero (mixLanes cfg seed)) :
    expand cfg seed = cfg.fallback :=
  if_pos h

/-- Settles O19: the all-zero test decides between the mixed lanes and the fallback, and neither outcome is all zero. -/
theorem expandIsMixOrFallback : Obligations.ExpandIsMixOrFallback := fun cfg seed =>
  ⟨fun hsome i => congrFun (expand_eq_mixLanes hsome) i, expand_eq_fallback, not_forall.1 (not_allZero_expand cfg seed)⟩

/-- Settles O20: what a sufficient SEED puts into the block's fields is given by the seed alone. -/
theorem reseedEqualsSeedAfterReset : Obligations.ReseedEqualsSeedAfterReset := fun s _ seed hslen =>
  ⟨_, _, seedOn_sufficient Config.block hslen seed s, seedOn_sufficient Config.block hslen seed State.reset,
    rfl, rfl, rfl, rfl⟩

end Sys2Proof.Machine
end

section
/-! The update of one lane and of the vector: shifts as arithmetic, linearity, bijectivity (41_round_engine.md R101,
R107, R110). -/

namespace Sys2Proof.Machine

/-- A left shift as arithmetic on the word's value (41_round_engine.md R107). -/
theorem shiftLeft_eq_ofNat {w : Nat} (x : BitVec w) (k : Nat) : x <<< k = BitVec.ofNat w (x.toNat * 2 ^ k % 2 ^ w) :=
  BitVec.eq_of_toNat_eq (by simp [Nat.shiftLeft_eq])

/-- A logical right shift as arithmetic on the word's value (41_round_engine.md R107). -/
theorem ushiftRight_eq_ofNat {w : Nat} (x : BitVec w) (k : Nat) : x >>> k = BitVec.ofNat w (x.toNat / 2 ^ k) := by
  rw [← Nat.shiftRight_eq_div_pow, ← BitVec.toNat_ushiftRight, BitVec.ofNat_toNat, BitVec.setWidth_eq]

/-- A step to the left is linear over the two-element field. -/
theorem xor_shiftLeft_xor {w : Nat} (x y : BitVec w) (k : Nat) :
    x ^^^ y ^^^ ((x ^^^ y) <<< k) = x ^^^ (x <<< k) ^^^ (y ^^^ (y <<< k)) := by
  rw [BitVec.shiftLeft_xor_distrib]
  ac_rfl

/-- A step to the right is linear over the two-element field. -/
theorem xor_ushiftRight_xor {w : Nat} (x y : BitVec w) (k : Nat) :
    x ^^^ y ^^^ ((x ^^^ y) >>> k) = x ^^^ (x >>> k) ^^^ (y ^^^ (y >>> k)) := by
  rw [BitVec.ushiftRight_xor_distrib]
  ac_rfl

variable {cfg : Config}

/-- `XsLane` is linear over the two-element field, as each of its three steps is. -/
theorem xsLane_xor (x y : Word) : xsLane cfg (x ^^^ y) = xsLane cfg x ^^^ xsLane cfg y := by
  simp only [xsLane, xor_shiftLeft_xor, xor_ushiftRight_xor]

@[simp] theorem xsLane_zero : xsLane cfg 0#64 = 0#64 := (xsLane_eq_zero_iff _).2 rfl

/-- A linear map with zero kernel is injective, and there are finitely many words. -/
theorem xsLane_bijective (cfg : Config) : Function.Bijective (xsLane cfg) := by
  refine Finite.injective_iff_bijective.1 fun x y hxy => ?_
  have hker : xsLane cfg (x ^^^ y) = 0#64 := by rw [xsLane_xor, hxy, BitVec.xor_self]
  exact BitVec.xor_eq_zero_iff.1 ((xsLane_eq_zero_iff _).1 hker)

theorem xsVec_bijective (cfg : Config) : Function.Bijective (xsVec cfg) := (xsLane_bijective cfg).comp_left

/-- Settles O21: the three steps of `XsLane` are the definition's own, each shift read as arithmetic. -/
theorem xsLaneIsThreeShiftSteps : Obligations.XsLaneIsThreeShiftSteps := by
  refine ⟨fun cfg x => ⟨_, _, rfl, rfl, ?_⟩, fun _ => xsLane_zero, by decide⟩
  simp only [← shiftLeft_eq_ofNat, ← ushiftRight_eq_ofNat]
  rfl

/-- Settles O23: linearity and the zero kernel make each lane's update, and so the vector's, a bijection. -/
theorem xsLaneIsLinearBijection : Obligations.XsLaneIsLinearBijection := fun cfg =>
  ⟨xsLane_xor, xsLane_bijective cfg, fun x => (xsLane_eq_zero_iff x).1, xsVec_bijective cfg⟩

end Sys2Proof.Machine
end

section
/-! The R+ combination: zero lanes, and the partner map (41_round_engine.md R105, R109, R111, R114). -/

namespace Sys2Proof.Machine

variable {cfg : Config}

/-- Settles O22: a wrapping sum of words is the sum of their values modulo `2^64`. -/
theorem vectorsActLaneByLane : Obligations.VectorsActLaneByLane := fun _ v i =>
  ⟨rfl, BitVec.toNat_add (v i) (v (partner _ i))⟩

theorem xsVec_eq_self_of_allZero {v : LaneVec cfg} (h : AllZero v) : xsVec cfg v = v := by
  funext i
  rw [xsVec, h i]
  exact xsLane_zero

theorem combine_eq_self_of_partner_zero {v : LaneVec cfg} {i : Fin cfg.N} (h : v (partner cfg i) = 0) :
    combine cfg v i = v i := by
  rw [combine, h]
  exact BitVec.add_zero _

theorem combine_eq_partner_of_zero {v : LaneVec cfg} {i : Fin cfg.N} (h : v i = 0) :
    combine cfg v i = v (partner cfg i) := by
  rw [combine, h]
  exact BitVec.zero_add _

theorem allZero_combine {v : LaneVec cfg} (h : AllZero v) : AllZero (combine cfg v) := fun i =>
  (combine_eq_self_of_partner_zero (h _)).trans (h i)

/-- Settles O24: rounds keep which lanes are zero, and no seed expands to the all-zero vector. -/
theorem lanesNeverAllZero : Obligations.LanesNeverAllZero := fun cfg r =>
  ⟨fun v hv => mt (allZero_xsVecIter_iff r v).1 hv,
    fun seed => mt (allZero_xsVecIter_iff r _).1 (not_allZero_expand cfg seed),
    fun _ hv => ⟨xsVec_eq_self_of_allZero hv, allZero_combine hv⟩⟩

/-- Two lanes whose values sum to `2^64`, or are both zero, cancel. -/
theorem combine_eq_zero_of_partner_neg {v : LaneVec cfg} {i : Fin cfg.N} (h : v (partner cfg i) = -v i) :
    combine cfg v i = 0 := by
  rw [combine, h]
  exact add_neg_cancel _

/-- Settles O25: `XsLane` has a zero kernel, and each output is the sum of a lane and its partner. -/
theorem zeroLaneStaysZero : Obligations.ZeroLaneStaysZero := by
  refine fun cfg v i => ⟨fun r => xsVecIter_eq_zero_iff r v i, fun hzero => ⟨combine_eq_partner_of_zero hzero, ?_⟩,
    combine_eq_zero_of_partner_neg⟩
  rintro j rfl
  exact combine_eq_self_of_partner_zero hzero

theorem partner_val (i : Fin cfg.N) : (partner cfg i).val = (i.val + cfg.R) % cfg.N := rfl

/-- The index of the partner, with the wrap as a case distinction. -/
theorem partner_val_ite (i : Fin cfg.N) :
    (partner cfg i).val = if cfg.N ≤ i.val + cfg.R then i.val + cfg.R - cfg.N else i.val + cfg.R := by
  have hR := cfg.R_range
  have hN := cfg.N_pos
  rw [partner_val, Nat.add_mod_eq_ite, Nat.mod_eq_of_lt i.isLt, Nat.mod_eq_of_lt (by omega : cfg.R < cfg.N)]

theorem partner_injective (cfg : Config) : Function.Injective (partner cfg) := by
  intro i j hij
  have hval := congrArg Fin.val hij
  have hi := i.isLt
  have hj := j.isLt
  rw [partner_val_ite, partner_val_ite] at hval
  apply Fin.ext
  split at hval <;> split at hval <;> omega

theorem partner_bijective (cfg : Config) : Function.Bijective (partner cfg) :=
  Finite.injective_iff_bijective.1 (partner_injective cfg)

theorem partner_ne_self (i : Fin cfg.N) : partner cfg i ≠ i := by
  intro hfix
  have hval := congrArg Fin.val hfix
  have hR := cfg.R_range
  have hi := i.isLt
  rw [partner_val_ite] at hval
  split at hval <;> omega

/-- At half the lane count the offset pairs the lanes off. -/
theorem partner_partner_of_half (h : cfg.N = 2 * cfg.R) (i : Fin cfg.N) : partner cfg (partner cfg i) = i := by
  have hi := i.isLt
  apply Fin.ext
  rw [partner_val_ite, partner_val_ite]
  split <;> split <;> omega

/-- Lanes paired off give one sum in both orders. -/
theorem combine_partner_of_half (h : cfg.N = 2 * cfg.R) (v : LaneVec cfg) (i : Fin cfg.N) :
    combine cfg v (partner cfg i) = combine cfg v i := by
  rw [combine, combine, partner_partner_of_half h, BitVec.add_comm]

/-- With two lanes each is the other's partner, so both outputs are the one sum. -/
theorem combine_eq_of_two_lanes (h : cfg.N = 2) (v : LaneVec cfg) (i j : Fin cfg.N) :
    combine cfg v i = combine cfg v j := by
  have hR := cfg.R_range
  have hij : j = i ∨ j = partner cfg i := by
    have hi := i.isLt
    have hj := j.isLt
    rw [Fin.ext_iff, Fin.ext_iff, partner_val_ite]
    split <;> omega
  rcases hij with rfl | rfl
  · rfl
  · exact (combine_partner_of_half (by omega) v i).symm

/-- Settles O26: the offset lies strictly between 0 and `N`, and where it is `N / 2` the partner map undoes itself. -/
theorem partnerIsFixedPointFreePermutation : Obligations.PartnerIsFixedPointFreePermutation := by
  refine fun cfg => ⟨partner_val, partner_bijective cfg, partner_ne_self, fun v i j =>
    ⟨fun htwo => combine_eq_of_two_lanes htwo v i j, fun hhalf hj => ?_⟩⟩
  have hpartner : j = partner cfg i := Fin.ext (by rw [hj, partner_val, Nat.mod_eq_of_lt (hj ▸ j.isLt)])
  rw [hpartner, combine_partner_of_half hhalf]

end Sys2Proof.Machine
end

section
/-! The canonical stream begins with an output of the first round's new state (41_round_engine.md R115). -/

namespace Sys2Proof.Machine

variable {cfg : Config}

/-- The stream begins with the first output of the first round, made from the updated lanes (42_fill_stream_cursor.md
R128). -/
theorem stream_zero (s0 : LaneVec cfg) (h0 : 0 < cfg.N) (hR : cfg.R < cfg.N) :
    stream cfg s0 0 = xsLane cfg (s0 ⟨0, h0⟩) + xsLane cfg (s0 ⟨cfg.R, hR⟩) := by
  simp [stream, combine, partner, xsVecIter_succ, xsVec, Nat.mod_eq_of_lt hR]

/-- Settles O27: a FILL of one word after a SEED writes the first word of the seed's stream. -/
theorem firstWordComesFromNewState : Obligations.FirstWordComesFromNewState := by
  refine ⟨fun _ _ _ => rfl, fun s slen seed h0 hR hslen => ?_⟩
  obtain ⟨t, u, hseed, hnext, hwrites⟩ := seedRestartsStreamFromAnyState s slen seed 1 hslen
  refine ⟨t, u, hseed, hnext, ?_⟩
  rw [hwrites, ← stream_zero]
  rfl

end Sys2Proof.Machine
end

section
/-! How many rounds a FILL needs, by the least-number property of the ceiling, and what it leaves behind on a block that
holds a Generator (42_fill_stream_cursor.md R131, R133). -/

namespace Sys2Proof.Machine

variable {cfg : Config}

/-- The least natural of 00_scope.md section 6, by way of Mathlib's ceiling division. -/
theorem ceilDiv_le_iff {x n q : Nat} (hn : 0 < n) : ceilDiv x n ≤ q ↔ x ≤ n * q := by
  rw [ceilDiv, ← Nat.ceilDiv_eq_add_pred_div, ceilDiv_le_iff_le_mul hn, Nat.mul_comm]

/-- The rounds needed are the least number of rounds after which there are `len` words. -/
theorem roundsNeeded_le_iff {c len n : Nat} : roundsNeeded cfg c len ≤ n ↔ len ≤ c + n * cfg.N := by
  unfold roundsNeeded
  split
  case isTrue hle => omega
  case isFalse hgt => rw [ceilDiv_le_iff cfg.N_pos, Nat.mul_comm]; omega

theorem le_add_roundsNeeded_mul (c len : Nat) : len ≤ c + roundsNeeded cfg c len * cfg.N :=
  (filled_words cfg c len).1

@[simp] theorem roundsNeeded_of_le {c len : Nat} (h : len ≤ c) : roundsNeeded cfg c len = 0 := if_pos h

/-- From fewer than `N` held words, `q * N` words take `q` rounds (42_fill_stream_cursor.md R131). -/
theorem roundsNeeded_mul {c : Nat} (hc : c < cfg.N) (q : Nat) : roundsNeeded cfg c (q * cfg.N) = q := by
  refine le_antisymm (roundsNeeded_le_iff.2 (Nat.le_add_left ..)) ?_
  have henough := le_add_roundsNeeded_mul (cfg := cfg) c (q * cfg.N)
  refine Nat.le_of_lt_succ (Nat.lt_of_mul_lt_mul_right (a := cfg.N) ?_)
  rw [Nat.succ_mul]
  omega

/-- Up to `N` words on an empty cursor take one round (42_fill_stream_cursor.md R125). -/
theorem roundsNeeded_zero_eq_one {len : Nat} (h0 : 0 < len) (hN : len ≤ cfg.N) : roundsNeeded cfg 0 len = 1 := by
  have hone : roundsNeeded cfg 0 len ≤ 1 := roundsNeeded_le_iff.2 (by omega)
  have hpos : ¬ roundsNeeded cfg 0 len ≤ 0 := fun h => by have := roundsNeeded_le_iff.1 h; omega
  omega

/-- Rounds add up over two FILLs, the second of which finds the words the first has left over
(42_fill_stream_cursor.md R129). -/
theorem roundsNeeded_add (c l1 l2 : Nat) :
    roundsNeeded cfg c (l1 + l2) =
      roundsNeeded cfg c l1 +
        roundsNeeded cfg (c + roundsNeeded cfg c l1 * cfg.N - l1) l2 := by
  have h1 := le_add_roundsNeeded_mul (cfg := cfg) c l1
  have h12 := le_add_roundsNeeded_mul (cfg := cfg) c (l1 + l2)
  have h2 := le_add_roundsNeeded_mul (cfg := cfg) (c + roundsNeeded cfg c l1 * cfg.N - l1) l2
  refine le_antisymm (roundsNeeded_le_iff.2 ?_) ?_
  · rw [Nat.add_mul]
    omega
  · have hfirst : roundsNeeded cfg c l1 ≤ roundsNeeded cfg c (l1 + l2) := roundsNeeded_le_iff.2 (by omega)
    obtain ⟨k, hk⟩ := Nat.exists_eq_add_of_le hfirst
    rw [hk] at h12 ⊢
    refine Nat.add_le_add_left (roundsNeeded_le_iff.2 ?_) _
    rw [Nat.add_mul] at h12
    omega

/-- The words left over after a FILL. -/
theorem State.filled_cur_length (len : Nat) (v : LaneVec cfg) (s : State) :
    (s.filled cfg len v).cur.length = s.cur.length + roundsNeeded cfg s.cur.length len * cfg.N - len := by
  simp

/-- A FILL finds `len` words to write. -/
theorem filled_words_length (len : Nat) (v : LaneVec cfg) (cur : List Word) :
    ((cur ++ outputsOf cfg (roundsNeeded cfg cur.length len) v).take len).length = len := by
  simpa using le_add_roundsNeeded_mul cur.length len

/-- A FILL leaves a ready block ready, its lanes the rounds needed on. -/
theorem Ready.filled {s : State} {v : LaneVec cfg} (h : Ready cfg s v) (len : Nat) :
    Ready cfg (s.filled cfg len v) (xsVecIter cfg (roundsNeeded cfg s.cur.length len) v) :=
  ⟨h.seeded, rfl⟩

end Sys2Proof.Machine
end

section
/-! A FILL moves the block along its seed's stream: the closed form and the counts that follow from it
(42_fill_stream_cursor.md R130, R131, R133). -/

namespace Sys2Proof.Machine

variable {cfg : Config} {s : State} {seed : Word} {r p : Nat}

/-- A FILL keeps the invariants of 10_state.md R31: the block stands `len` words further on, the rounds needed later. -/
theorem Tracks.filled (h : Tracks cfg s seed r p) (len : Nat) :
    Tracks cfg (s.filled cfg len (xsVecIter cfg r (expand cfg seed))) seed
      (r + roundsNeeded cfg s.cur.length len) (p + len) := by
  obtain ⟨henough, hfew⟩ := filled_words cfg s.cur.length len
  have hcount := h.count
  have hmul := Nat.mul_comm cfg.N (roundsNeeded cfg s.cur.length len)
  refine { seeded := h.seeded, lanes := ?_, ghost := ?_, count := ?_, bound := ?_, words := ?_ }
  · rw [State.filled_lanes, Nat.add_comm, xsVecIter_add]
  · rw [State.filled_ghost, h.ghost]
    rfl
  · rw [State.filled_cur_length, Nat.mul_add]
    omega
  · rw [State.filled_cur_length]
    exact hfew h.bound
  · rw [State.filled_cur_length, State.filled_cur, h.cur_append_outputsOf, hmul, streamFrom_drop _ _ _ _ _ henough]
    rfl

/-- Over the life of a Generator the rounds are `ceil(delivered / N)` (42_fill_stream_cursor.md R133): the words of `r`
rounds are the `p` delivered and fewer than `N` held ones. -/
theorem Tracks.rounds_eq_ceilDiv (h : Tracks cfg s seed r p) : r = ceilDiv p cfg.N := by
  have hcount := h.count
  have hbound := h.bound
  have hceil := (ceilDiv_le_iff cfg.N_pos).1 (le_refl (ceilDiv p cfg.N))
  refine le_antisymm ?_ ((ceilDiv_le_iff cfg.N_pos).2 (by omega))
  refine Nat.le_of_lt_succ (Nat.lt_of_mul_lt_mul_left (a := cfg.N) ?_)
  rw [Nat.mul_succ]
  omega

/-- The cursor is empty exactly between rounds of the stream (42_fill_stream_cursor.md R131). -/
theorem Tracks.cur_eq_nil_iff (h : Tracks cfg s seed r p) : s.cur = [] ↔ cfg.N ∣ p := by
  refine ⟨fun hcur => ⟨r, by simpa [hcur] using h.count⟩, fun hp => ?_⟩
  have hdvd : cfg.N ∣ s.cur.length := (Nat.dvd_add_right hp).1 ⟨r, h.count⟩
  exact List.length_eq_zero_iff.1 (Nat.eq_zero_of_dvd_of_lt hdvd h.bound)

/-- Settles O37: a FILL moves the position by `len` and the rounds by those needed, and the rounds of a position are
fixed by it. -/
theorem fillClosedForm : Obligations.FillClosedForm := by
  intro s seed r p len htracks
  have hfilled := htracks.filled len
  have hrounds := hfilled.rounds_eq_ceilDiv
  refine ⟨_, fillOn_ready len htracks.ready, htracks.newWrites_eq_streamWrites len, hrounds ▸ hfilled, fun hle => ?_⟩
  rw [← hrounds, roundsNeeded_of_le hle, Nat.add_zero]

/-- Settles O39: with fewer than `N` words held a FILL of `q * N` words needs `q` rounds, and emptiness of the cursor is
read off the position reached. -/
theorem fillMultipleOfLaneCount : Obligations.FillMultipleOfLaneCount := by
  intro s seed r p len htracks
  have hfilled := htracks.filled len
  refine ⟨_, fillOn_ready len htracks.ready, ?_, hfilled.cur_eq_nil_iff⟩
  rintro ⟨q, rfl⟩
  have hrounds : roundsNeeded Config.block s.cur.length (Config.block.N * q) = q := by
    rw [Nat.mul_comm, roundsNeeded_mul htracks.bound]
  rw [hrounds] at hfilled
  refine ⟨?_, ?_⟩
  · rw [State.filled_cur_length, hrounds, Nat.mul_comm, Nat.add_sub_cancel]
  · rw [hfilled.lanes, Nat.mul_div_cancel_left _ Config.block.N_pos]

/-- Settles O41: a FILL runs the rounds needed, and the rounds of a position are fixed by it. -/
theorem roundsRunByFill : Obligations.RoundsRunByFill := by
  refine ⟨fun s v len hready => ?_, fun s seed r p htracks => htracks.rounds_eq_ceilDiv⟩
  refine ⟨_, _, fillOn_ready len hready, rfl, rfl, ?_⟩
  rw [State.filled_ghost, Option.map_map]
  rfl

end Sys2Proof.Machine
end

section
/-! The three phases of a FILL, and the FILLs that consist of one of them (42_fill_stream_cursor.md R123 to R127). -/

namespace Sys2Proof.Machine

variable {cfg : Config}

theorem placeAt_indices (d : Nat) (ws : List Word) : (placeAt d ws).map Prod.fst = List.range' d ws.length := by
  induction ws generalizing d with
  | nil => rfl
  | cons w ws ih => simp [placeAt, ih, List.range'_succ]

theorem placeAt_take (d n : Nat) (ws : List Word) : (placeAt d ws).take n = placeAt d (ws.take n) := by
  induction ws generalizing d n with
  | nil => simp [placeAt]
  | cons w ws ih =>
    cases n with
    | zero => rfl
    | succ n => simp [placeAt, ih]

/-- Settles O30: a ready block has `len` words after the rounds needed, and places them from index 0 on. -/
theorem fillOnReadyBlockCompletes : Obligations.FillOnReadyBlockCompletes := by
  intro s v len hready
  refine ⟨_, _, fillOn_ready len hready, State.filled_traffic len v s, ?_, hready.seeded⟩
  rw [placeAt_indices, filled_words_length, List.range_eq_range']

/-- A FILL within the held words leaves the lanes alone and takes its words off the cursor. -/
theorem Ready.filled_of_le_cur {s : State} {v : LaneVec cfg} (h : Ready cfg s v) {len : Nat} (hle : len ≤ s.cur.length) :
    (s.filled cfg len v).lanes = s.lanes ∧ (s.filled cfg len v).cur = s.cur.drop len ∧
      newWrites s (s.filled cfg len v) = placeAt 0 (s.cur.take len) := by
  simp [hle, h.lanes, outputsOf]

/-- An empty cursor has nothing to drain. -/
theorem drainCursor_of_cur_nil {r : FillRun cfg} (h : r.cur = []) : drainCursor r = r := by
  cases r
  cases h
  simp [drainCursor, FillRun.deliver, placeAt]

/-- Settles O32: the held words come before the outputs of any round, so a FILL begins with them. -/
theorem fillDrainsCursorFirst : Obligations.FillDrainsCursorFirst := by
  refine ⟨fun r => ⟨rfl, rfl, fun hle => ?_, drainCursor_of_cur_nil⟩, fun s v len hready => ?_⟩
  · simp [drainCursor, hle]
  · refine ⟨_, fillOn_ready len hready, ?_, hready.filled_of_le_cur⟩
    rw [newWrites_filled, placeAt_take, List.take_take, Nat.min_eq_left (Nat.min_le_right ..),
      List.take_append_of_le_length (Nat.min_le_left ..)]

/-- A FILL on an empty cursor writes outputs of the rounds needed and keeps the others. -/
theorem filled_of_cur_nil {s : State} (hcur : s.cur = []) (v : LaneVec cfg) {len n : Nat}
    (hn : roundsNeeded cfg 0 len = n) :
    (s.filled cfg len v).lanes = .held (List.ofFn (xsVecIter cfg n v)) ∧
      newWrites s (s.filled cfg len v) = placeAt 0 ((outputsOf cfg n v).take len) ∧
      (s.filled cfg len v).cur = (outputsOf cfg n v).drop len := by
  simp [hcur, hn]

/-- Settles O33: `bulkPasses_eq` says what the rounds of phase 2 do, and `q * N` words on an empty cursor need exactly
`q` rounds, all of whose outputs are written. -/
theorem fillBulkRoundsBypassCursor : Obligations.FillBulkRoundsBypassCursor := by
  refine ⟨fun r => ?_, fun s v q hready hcur => ?_⟩
  · have hrem : (bulkRounds r).rem < Config.block.N := by
      rw [bulkRounds_rem]
      exact Nat.mod_lt _ Config.block.N_pos
    rw [bulkRounds, bulkPasses_eq] at hrem ⊢
    exact ⟨rfl, hrem, rfl, rfl, rfl⟩
  · obtain ⟨hlanes, hwrites, hrest⟩ := filled_of_cur_nil hcur v (roundsNeeded_mul Config.block.N_pos q)
    have hall : (outputsOf Config.block q v).length ≤ q * Config.block.N := (outputsOf_length _ q v).le
    rw [List.take_of_length_le hall] at hwrites
    rw [List.drop_of_length_le hall] at hrest
    exact ⟨_, fillOn_ready _ hready, hrest, hlanes, hwrites⟩

theorem partialTail_of_rem_zero {r : FillRun cfg} (h : r.rem = 0) : partialTail r = r := if_pos h

/-- Phase 3 with fewer than `N` words left, as one record. -/
theorem partialTail_of_rem_lt {r : FillRun cfg} (h0 : 0 < r.rem) (hN : r.rem < cfg.N) :
    partialTail r = {
      lanes := xsVec cfg r.lanes, cur := (List.ofFn (combine cfg (xsVec cfg r.lanes))).drop r.rem,
      d := r.d + r.rem, rem := 0,
      writes := r.writes ++ placeAt r.d ((List.ofFn (combine cfg (xsVec cfg r.lanes))).take r.rem),
      rounds := r.rounds + 1 } := by
  simp [partialTail, h0.ne', FillRun.deliver, FillRun.roundStep, FillRun.outputs, Nat.min_eq_left hN.le]

/-- A FILL of fewer than `N` words on an empty cursor is one round, split at `len` (42_fill_stream_cursor.md R125). -/
theorem filled_short_of_cur_nil {s : State} (hcur : s.cur = []) (v : LaneVec cfg) {len : Nat} (h0 : 0 < len)
    (hN : len < cfg.N) :
    (s.filled cfg len v).lanes = .held (List.ofFn (xsVec cfg v)) ∧
      newWrites s (s.filled cfg len v) = placeAt 0 ((List.ofFn (combine cfg (xsVec cfg v))).take len) ∧
      (s.filled cfg len v).cur = (List.ofFn (combine cfg (xsVec cfg v))).drop len := by
  simpa [xsVecIter, outputsOf] using filled_of_cur_nil hcur v (roundsNeeded_zero_eq_one h0 hN.le)

/-- Settles O34: phase 3 as a phase and as the short FILL on an empty cursor, which needs one round. -/
theorem fillPartialTailKeepsSuffix : Obligations.FillPartialTailKeepsSuffix := by
  refine ⟨fun r => partialTail_of_rem_zero, fun r h0 hN => ?_, fun s v len hready hcur h0 hN => ?_⟩
  · exact ⟨_, rfl, partialTail_of_rem_lt h0 hN, by simp⟩
  · exact ⟨_, fillOn_ready len hready, filled_short_of_cur_nil hcur v h0 hN⟩

/-- `FILL 0` only responds (42_fill_stream_cursor.md R127). -/
theorem Ready.filled_zero {s : State} {v : LaneVec cfg} (h : Ready cfg s v) :
    s.filled cfg 0 v = { s with traffic := s.traffic ++ [.response Response.ok.code] } := by
  have hghost : s.ghost.map (Ghost.afterFill 0 0) = s.ghost := congrFun Option.map_id s.ghost
  simp [State.filled, hghost, h.lanes, outputsOf, placeAt, Memory.writeAll, asTransfers]

/-- Settles O35: a ready block needs no round and no write for no word, and an unseeded block refuses every FILL. -/
theorem fillZeroChangesNothing : Obligations.FillZeroChangesNothing :=
  ⟨fun _ _ hready => (fillOn_ready 0 hready).trans (congrArg _ hready.filled_zero),
    fun _ hs => fillOn_unseeded Config.block 0 hs⟩

end Sys2Proof.Machine
end

section
/-! Continuity: FILLs one after another act as one FILL of their total length (42_fill_stream_cursor.md R129, R135). -/

namespace Sys2Proof.Machine

variable {cfg : Config}

/-- All the state the block has (10_state.md R30), with the ghosts: what is not its boundary. -/
def State.generator (s : State) : Bool × Lanes × List Word × Option Ghost := (s.seeded, s.lanes, s.cur, s.ghost)

theorem State.generator_eq_iff {s t : State} :
    s.generator = t.generator ↔ s.seeded = t.seeded ∧ s.lanes = t.lanes ∧ s.cur = t.cur ∧ s.ghost = t.ghost := by
  simp [State.generator]

theorem placeAt_add (e d : Nat) (ws : List Word) :
    placeAt (e + d) ws = (placeAt d ws).map (fun x => (e + x.1, x.2)) := by
  induction ws generalizing d with
  | nil => rfl
  | cons w ws ih => simp [placeAt, ← ih, Nat.add_assoc]

section
variable (l1 l2 : Nat) (v : LaneVec cfg) (s : State)

/-- The rounds of two FILLs, counted from the cursor that the first leaves. -/
theorem State.roundsNeeded_filled :
    roundsNeeded cfg s.cur.length (l1 + l2) =
      roundsNeeded cfg s.cur.length l1 + roundsNeeded cfg (s.filled cfg l1 v).cur.length l2 := by
  rw [State.filled_cur_length, roundsNeeded_add]

/-- The words at hand for two FILLs: once the first `l1` are gone, what is left is what the second FILL finds held,
followed by the outputs of its own rounds. -/
theorem State.words_split_at_fill :
    (s.cur ++ outputsOf cfg (roundsNeeded cfg s.cur.length (l1 + l2)) v).take l1 =
        (s.cur ++ outputsOf cfg (roundsNeeded cfg s.cur.length l1) v).take l1 ∧
      (s.cur ++ outputsOf cfg (roundsNeeded cfg s.cur.length (l1 + l2)) v).drop l1 =
        (s.filled cfg l1 v).cur ++ outputsOf cfg (roundsNeeded cfg (s.filled cfg l1 v).cur.length l2)
          (xsVecIter cfg (roundsNeeded cfg s.cur.length l1) v) := by
  have henough : l1 ≤ (s.cur ++ outputsOf cfg (roundsNeeded cfg s.cur.length l1) v).length := by
    simpa using le_add_roundsNeeded_mul s.cur.length l1
  rw [State.roundsNeeded_filled l1 l2 v, outputsOf_add, ← List.append_assoc]
  exact ⟨List.take_append_of_le_length henough, List.drop_append_of_le_length henough⟩

/-- Two FILLs leave the block as one FILL of their total length does. -/
theorem State.generator_filled_filled :
    ((s.filled cfg l1 v).filled cfg l2 (xsVecIter cfg (roundsNeeded cfg s.cur.length l1) v)).generator =
      (s.filled cfg (l1 + l2) v).generator := by
  have hrounds := State.roundsNeeded_filled l1 l2 v s
  refine State.generator_eq_iff.2 ⟨rfl, ?_, ?_, ?_⟩
  · rw [State.filled_lanes, ← xsVecIter_add, Nat.add_comm, ← hrounds]
    rfl
  · rw [State.filled_cur, State.filled_cur (l1 + l2), ← List.drop_drop, (State.words_split_at_fill l1 l2 v s).2]
  · rw [State.filled_ghost, State.filled_ghost, State.filled_ghost (l1 + l2), hrounds, Option.map_map]
    congr 1
    funext g
    simp [Ghost.afterFill, Nat.add_assoc]

/-- Two FILLs write what one FILL of their total length writes, the second from index 0 again. -/
theorem newWrites_filled_add :
    newWrites s (s.filled cfg (l1 + l2) v) = newWrites s (s.filled cfg l1 v) ++
      (newWrites (s.filled cfg l1 v) ((s.filled cfg l1 v).filled cfg l2
        (xsVecIter cfg (roundsNeeded cfg s.cur.length l1) v))).map (fun x => (l1 + x.1, x.2)) := by
  obtain ⟨htake, hdrop⟩ := State.words_split_at_fill l1 l2 v s
  rw [newWrites_filled, newWrites_filled, newWrites_filled, List.take_add, htake, hdrop, placeAt_append,
    filled_words_length, ← placeAt_add, Nat.zero_add, Nat.add_zero]

end

/-- Settles O36: two FILLs write and leave what one of their total length does. -/
theorem fillIsContinuous : Obligations.FillIsContinuous := by
  intro s v l1 l2 hready
  obtain ⟨-, hlanes, hcur, hghost⟩ := State.generator_eq_iff.1 (State.generator_filled_filled l1 l2 v s)
  exact ⟨_, _, _, fillOn_ready l1 hready, fillOn_ready l2 (hready.filled l1), fillOn_ready (l1 + l2) hready,
    newWrites_filled_add l1 l2 v s, hlanes, hcur, hghost⟩

theorem State.traffic_prefix_filled (len : Nat) (v : LaneVec cfg) (s : State) :
    s.traffic <+: (s.filled cfg len v).traffic := by
  rw [State.filled_traffic, List.append_assoc]
  exact List.prefix_append ..

/-- What is written between two states is what is written up to a state between them and from there on. -/
theorem newWords_trans {s t u : State} (hst : s.traffic <+: t.traffic) (htu : t.traffic <+: u.traffic) :
    newWords s u = newWords s t ++ newWords t u := by
  obtain ⟨ts, hts⟩ := hst
  obtain ⟨us, hus⟩ := htu
  simp [newWords, newWrites, ← hus, ← hts]

theorem newWords_filled_add (l1 l2 : Nat) (v : LaneVec cfg) (s : State) :
    newWords s (s.filled cfg (l1 + l2) v) = newWords s (s.filled cfg l1 v) ++
      newWords (s.filled cfg l1 v) ((s.filled cfg l1 v).filled cfg l2
        (xsVecIter cfg (roundsNeeded cfg s.cur.length l1) v)) := by
  simp only [newWords, newWrites_filled_add, List.map_append, List.map_map, Function.comp_def]

/-- `len` times NEXT completes, delivers the words of `FILL len` and leaves the block as it does, one word at a time. -/
theorem repeatExec_next_ready (len : Nat) {s : State} {v : LaneVec Config.block} (h : Ready Config.block s v) :
    ∃ u, repeatExec nextCommand len s = .next u ∧ s.traffic <+: u.traffic ∧
      newWords s u = newWords s (s.filled Config.block len v) ∧
      u.generator = (s.filled Config.block len v).generator := by
  induction len generalizing s v with
  | zero =>
    refine ⟨s, rfl, List.prefix_rfl, ?_, ?_⟩
    · simp [newWords, newWrites, h.filled_zero]
    · rw [h.filled_zero]
      rfl
  | succ len ih =>
    obtain ⟨u, hrun, hprefix, hwords, hgenerator⟩ := ih (h.filled 1)
    have hnext : exec nextCommand s = .next (s.filled Config.block 1 v) := fillOn_ready 1 h
    have hfirst := State.traffic_prefix_filled 1 v s
    refine ⟨u, ?_, hfirst.trans hprefix, ?_, ?_⟩
    · rw [repeatExec, hnext]
      exact hrun
    · rw [newWords_trans hfirst hprefix, hwords, Nat.add_comm, newWords_filled_add]
    · rw [hgenerator, State.generator_filled_filled, Nat.add_comm]

/-- Settles O42: `repeatExec_next_ready`, and NEXT as the FILL of one word, within the held words or short of a round. -/
theorem fillIsRepeatedNext : Obligations.FillIsRepeatedNext := by
  intro s v hready
  refine ⟨fun len => ?_, fun w q hcur => ?_, fun hcur => ?_⟩
  · obtain ⟨u, hrun, -, hwords, hgenerator⟩ := repeatExec_next_ready len hready
    exact ⟨_, u, fillOn_ready len hready, hrun, hwords, State.generator_eq_iff.1 hgenerator⟩
  · have hheld : 1 ≤ s.cur.length := by simp [hcur]
    obtain ⟨hlanes, hrest, hwrites⟩ := hready.filled_of_le_cur hheld
    rw [hcur] at hrest hwrites
    exact ⟨_, fillOn_ready 1 hready, hwrites, hrest, hlanes⟩
  · obtain ⟨hlanes, hwrites, hrest⟩ := filled_short_of_cur_nil hcur v Nat.one_pos Config.block.two_le_N
    have hne : List.ofFn (combine Config.block (xsVec Config.block v)) ≠ [] :=
      List.ne_nil_of_length_pos (by simpa using Config.block.N_pos)
    obtain ⟨w, q, hwq⟩ := List.exists_cons_of_ne_nil hne
    rw [hwq] at hrest hwrites
    exact ⟨_, w, q, fillOn_ready 1 hready, hwq, hwrites, hrest, hlanes⟩

end Sys2Proof.Machine
end

section
/-! The commands without operand, NOP and RELEASE (43_lifecycle_commands.md). -/

namespace Sys2Proof

variable {cw : CommandWord}

/-- Of the words with op 0 the decoder accepts NOP alone (30_encoding.md R62). -/
theorem eq_nop_of_decode_of_op_zero {i : Instr} (hop : cw.toNat % 16 = 0) (h : decode cw = .ok i) : i = .nop := by
  obtain ⟨-, ⟨-, -, -, hnop⟩ | ⟨hseed, -⟩ | ⟨hfill, -⟩ | ⟨hrelease, -⟩⟩ := decode_eq_ok_iff.1 h
  · exact hnop
  · omega
  · omega
  · omega

/-- NOP's word is the only legal word with op 0, so every other is illegal (43_lifecycle_commands.md R140). -/
theorem exists_decode_eq_error_of_op_zero (hop : cw.toNat % 16 = 0) (hne : cw ≠ 0) : ∃ e, decode cw = .error e := by
  refine exists_decode_eq_error_iff.2 fun ⟨i, hlegal⟩ => hne ?_
  obtain rfl := eq_nop_of_decode_of_op_zero hop hlegal
  exact decode_eq_ok_nop_iff.1 hlegal

end Sys2Proof

namespace Sys2Proof.Machine

/-- NOP is its response and nothing else. -/
theorem exec_nop (s : State) : exec .nop s = .next { s with traffic := s.traffic ++ [.response Response.ok.code] } :=
  congrArg Host.Outcome.next (State.respond_eq .ok s)

/-- RELEASE discards the Generator and responds, in every state. -/
theorem exec_release (s : State) :
    exec .release s = .next { s.discardGenerator with traffic := s.traffic ++ [.response Response.ok.code] } :=
  congrArg Host.Outcome.next (State.respond_eq .ok s.discardGenerator)

/-- Where nothing is held there is nothing to discard. -/
theorem State.discardGenerator_eq_self {s : State} (hseeded : s.seeded = false) (hlanes : s.lanes = .noValue)
    (hcur : s.cur = []) (hghost : s.ghost = none) : s.discardGenerator = s := by
  rw [State.discardGenerator_eq, ← hseeded, ← hlanes, ← hcur, ← hghost]

/-- RELEASE on a block that holds nothing is its response and nothing else (43_lifecycle_commands.md R143). -/
theorem exec_release_of_discardGenerator_eq_self {s : State} (h : s.discardGenerator = s) :
    exec .release s = .next { s with traffic := s.traffic ++ [.response Response.ok.code] } := by
  rw [exec_release, h]

/-- Settles O15: NOP is its response, and the legal words with op 0 are NOP's alone. -/
theorem nopOnlyRespondsOk : Obligations.NopOnlyRespondsOk :=
  ⟨exec_nop, by decide, fun _ => exists_decode_eq_error_of_op_zero⟩

/-- Settles O16: the block's fields are cleared as reset has them, and a FILL then finds no Generator. -/
theorem releaseDiscardsGenerator : Obligations.ReleaseDiscardsGenerator := by
  refine ⟨by decide, fun s => ⟨_, exec_release s, rfl, rfl, rfl, rfl, rfl, fun len => ?_⟩⟩
  exact fillOn_unseeded Config.block len (s := s.discardGenerator.respond .ok) rfl

/-- Settles O17: after a RELEASE nothing is held, and by the invariant neither is without a Generator. -/
theorem releaseIsIdempotent : Obligations.ReleaseIsIdempotent := by
  refine ⟨fun s => ⟨_, exec_release s, exec_release_of_discardGenerator_eq_self rfl⟩, fun s hinv hseeded => ?_⟩
  obtain ⟨hlanes, hcur, hghost⟩ := hinv.unseeded hseeded
  exact exec_release_of_discardGenerator_eq_self (State.discardGenerator_eq_self hseeded hlanes hcur hghost)

end Sys2Proof.Machine
end

section
/-! How a command is answered: the code that the checks give it, the writes before the response, and that an error is
its response alone (60_exceptions.md). -/

namespace Sys2Proof

open Machine

variable {cw : CommandWord}

/-- How a decoded command must be answered: `responseTo` without the check of the word (60_exceptions.md R156). -/
def Instr.answer (seeded : Bool) : Instr → Response
  | .nop => .ok
  | .seed slen _ => if slen < 64 then .insufficientSeed else .ok
  | .fill _ => if seeded then .ok else .notSeeded
  | .release => .ok

/-- How many destination writes a decoded command performs: `writeCountOf` without the check of the word. -/
def Instr.writeCount (seeded : Bool) : Instr → Nat
  | .fill len => if seeded then len else 0
  | .nop => 0
  | .seed _ _ => 0
  | .release => 0

theorem responseTo_of_legal {i : Instr} (h : decode cw = .ok i) (seeded : Bool) :
    responseTo cw seeded = i.answer seeded := by
  rw [responseTo, h]
  cases i <;> rfl

theorem responseTo_of_illegal {e : Illegal} (h : decode cw = .error e) (seeded : Bool) :
    responseTo cw seeded = .illegalCommand := by
  rw [responseTo, h]

theorem writeCountOf_of_legal {i : Instr} (h : decode cw = .ok i) (seeded : Bool) :
    writeCountOf cw seeded = i.writeCount seeded := by
  rw [writeCountOf, h]
  cases i <;> rfl

theorem writeCountOf_of_illegal {e : Illegal} (h : decode cw = .error e) (seeded : Bool) :
    writeCountOf cw seeded = 0 := by
  rw [writeCountOf, h]

/-- NotSeeded is FILL's error and no other command's (60_exceptions.md R152). -/
theorem Instr.answer_eq_notSeeded_iff {i : Instr} {seeded : Bool} :
    i.answer seeded = .notSeeded ↔ seeded = false ∧ ∃ len, i = .fill len := by
  cases i with
  | nop => simp [Instr.answer]
  | release => simp [Instr.answer]
  | seed slen seed =>
    rw [Instr.answer]
    split <;> simp
  | fill len => cases seeded <;> simp [Instr.answer]

/-- The answers of a seeded block (60_exceptions.md R160). -/
theorem responseTo_seeded_cases (cw : CommandWord) :
    responseTo cw true = .ok ∨
    (responseTo cw true = .insufficientSeed ∧ ∃ slen seed, slen < 64 ∧ decode cw = .ok (.seed slen seed)) ∨
    (responseTo cw true = .illegalCommand ∧ ∃ e, decode cw = .error e) := by
  cases hdecode : decode cw with
  | error e => exact .inr (.inr ⟨responseTo_of_illegal hdecode true, e, rfl⟩)
  | ok i =>
    rw [responseTo_of_legal hdecode]
    cases i with
    | nop => exact .inl rfl
    | release => exact .inl rfl
    | fill len => exact .inl rfl
    | seed slen seed =>
      rcases Nat.lt_or_ge slen 64 with hslen | hslen
      · exact .inr (.inl ⟨if_pos hslen, slen, seed, hslen, rfl⟩)
      · exact .inl (if_neg (Nat.not_lt.2 hslen))

end Sys2Proof

namespace Sys2Proof.Machine

variable {cfg : Config} {s t : State} {cw : CommandWord}

/-- No two responses share a code (30_encoding.md R68). -/
theorem Response.code_injective : Function.Injective Response.code := fun a b => by
  cases a <;> cases b <;> decide

/-- A command that must be answered with an error gives that response and nothing else, in every state
(60_exceptions.md R157). -/
theorem execOn_of_error {i : Instr} (h : i.answer s.seeded ≠ .ok) :
    execOn cfg i s = .next { s with traffic := s.traffic ++ [.response (i.answer s.seeded).code] } := by
  cases i with
  | nop => exact absurd rfl h
  | release => exact absurd rfl h
  | seed slen seed =>
    rcases Nat.lt_or_ge slen 64 with hslen | hslen
    · rw [execOn, seedOn_insufficient cfg hslen, Instr.answer, if_pos hslen]
    · exact absurd (if_neg (Nat.not_lt.2 hslen)) h
  | fill len =>
    have hseeded : s.seeded = false := by simpa [Instr.answer] using h
    simp [execOn, fillOn_unseeded cfg len hseeded, Instr.answer, hseeded]

/-- A command that completes adds its writes, as many as it must perform, and then the one response it must give. -/
theorem execOn_answers {i : Instr} (h : execOn cfg i s = .next t) :
    ∃ ws, t.traffic = s.traffic ++ asTransfers ws ++ [.response (i.answer s.seeded).code] ∧
      t.inputs = s.inputs ∧ ws.length = i.writeCount s.seeded := by
  cases i with
  | nop =>
    cases h
    exact ⟨[], by simp [State.respond_eq, asTransfers, Instr.answer], rfl, rfl⟩
  | release =>
    cases h
    exact ⟨[], by simp [State.respond_eq, State.discardGenerator_eq, asTransfers, Instr.answer], rfl, rfl⟩
  | seed slen seed =>
    rcases Nat.lt_or_ge slen 64 with hslen | hslen
    · cases (seedOn_insufficient cfg hslen seed s).symm.trans h
      exact ⟨[], by simp [asTransfers, Instr.answer, hslen], rfl, rfl⟩
    · cases (seedOn_sufficient cfg hslen seed s).symm.trans h
      exact ⟨[], by simp [asTransfers, Instr.answer, Nat.not_lt.2 hslen], rfl, rfl⟩
  | fill len =>
    rcases fillOn_cases (cfg := cfg) len s with ⟨hseeded, hf⟩ | ⟨_, _, hf⟩ | ⟨v, hready, hf⟩
    · cases hf.symm.trans h
      exact ⟨[], by simp [State.raise_eq, asTransfers, Instr.answer, hseeded], rfl, by simp [Instr.writeCount, hseeded]⟩
    · cases hf.symm.trans h
    · cases hf.symm.trans h
      rw [Instr.answer, Instr.writeCount, if_pos hready.seeded, if_pos hready.seeded]
      exact ⟨_, State.filled_traffic len v s, rfl, by rw [placeAt_length, filled_words_length]⟩

/-- A ready block completes every command. -/
theorem Ready.execOn_completes {v : LaneVec cfg} (h : Ready cfg s v) (i : Instr) : ∃ t, execOn cfg i s = .next t := by
  cases i with
  | nop => exact ⟨_, rfl⟩
  | release => exact ⟨_, rfl⟩
  | fill len => exact ⟨_, fillOn_ready len h⟩
  | seed slen seed =>
    rcases Nat.lt_or_ge slen 64 with hslen | hslen
    · exact ⟨_, seedOn_insufficient cfg hslen seed s⟩
    · exact ⟨_, seedOn_sufficient cfg hslen seed s⟩

/-- A command word that must be answered with an error is accepted and answered, and nothing else happens. -/
theorem runWord_of_error (h : responseTo cw s.seeded ≠ .ok) :
    runWord (execOn cfg) cw s = .next { s with
      traffic := s.traffic ++ [.command cw, .response (responseTo cw s.seeded).code] } := by
  cases hdecode : decode cw with
  | error e =>
    rw [runWord_error _ hdecode, responseTo_of_illegal hdecode]
    simp [State.raise_eq, State.accept_eq]
  | ok i =>
    rw [responseTo_of_legal hdecode] at h ⊢
    rw [runWord_ok _ hdecode, execOn_of_error (s := s.accept cw) h]
    simp [State.accept_eq]

/-- A command word that completes: accepted, its writes performed, and the response given that the checks in order give
(30_encoding.md R70, 60_exceptions.md R156). -/
theorem runWord_answers (h : runWord (execOn cfg) cw s = .next t) :
    ∃ ws, t.traffic = s.traffic ++ [.command cw] ++ asTransfers ws ++ [.response (responseTo cw s.seeded).code] ∧
      t.inputs = s.inputs ∧ ws.length = writeCountOf cw s.seeded := by
  cases hdecode : decode cw with
  | error e =>
    cases (runWord_error _ hdecode s).symm.trans h
    exact ⟨[], by simp [State.raise_eq, State.accept_eq, asTransfers, responseTo_of_illegal hdecode], rfl,
      (writeCountOf_of_illegal hdecode _).symm⟩
  | ok i =>
    rw [runWord_ok _ hdecode] at h
    rw [responseTo_of_legal hdecode, writeCountOf_of_legal hdecode]
    exact execOn_answers h

/-- Under the invariant a block without a Generator refuses what needs one, and a block with one is ready, so every
command word is answered. -/
theorem State.Inv.runWord_completes (h : s.Inv cfg) (cw : CommandWord) : ∃ t, runWord (execOn cfg) cw s = .next t := by
  cases hseeded : s.seeded with
  | false =>
    obtain ⟨t, _, hrun, _⟩ := runWord_unseeded cw hseeded
    exact ⟨t, hrun⟩
  | true =>
    obtain ⟨seed, r, p, htracks⟩ := h.seeded hseeded
    cases hdecode : decode cw with
    | error e => exact ⟨_, runWord_error _ hdecode s⟩
    | ok i =>
      have hready : Ready cfg (s.accept cw) _ := ⟨hseeded, htracks.lanes⟩
      rw [runWord_ok _ hdecode]
      exact hready.execOn_completes i

/-- What is offered is no part of a block's standing in its stream. -/
theorem Tracks.setInputs {seed : Word} {r p : Nat} (h : Tracks cfg s seed r p) (l : List Input) :
    Tracks cfg (s.setInputs l) seed r p :=
  { seeded := h.seeded, lanes := h.lanes, ghost := h.ghost, count := h.count, bound := h.bound, words := h.words }

/-- What is offered is no part of the invariant. -/
theorem State.Inv.setInputs (h : s.Inv cfg) (l : List Input) : (s.setInputs l).Inv cfg where
  dst := h.dst
  unseeded := h.unseeded
  seeded hseeded :=
    let ⟨seed, r, p, htracks⟩ := h.seeded hseeded
    ⟨seed, r, p, htracks.setInputs l⟩

/-- A step with a command word offered runs that word on the block built with `Config.block`. -/
theorem step_of_command_execOn {rest : List Input} (h : s.inputs = .command cw :: rest) :
    step s = runWord (execOn Config.block) cw (s.setInputs rest) :=
  (step_of_command h).trans (congrArg (fun run => runWord run cw _) (funext₂ exec_eq_execOn))

/-- Settles O12: under the invariant the offered word is answered, and `runWord_answers` says by what. -/
theorem everyCommandIsAnsweredOnce : Obligations.EveryCommandIsAnsweredOnce := by
  intro s cw rest hinv hoffered
  obtain ⟨t, hrun⟩ := (hinv.setInputs rest).runWord_completes cw
  obtain ⟨ws, htraffic, hinputs, hcount⟩ := runWord_answers hrun
  exact ⟨t, ws, (step_of_command_execOn hoffered).trans hrun, hinputs, htraffic, hcount⟩

/-- Settles O13: whichever check fails, the command is its response alone. -/
theorem errorsChangeNothing : Obligations.ErrorsChangeNothing := fun s _ rest hoffered herror =>
  (step_of_command_execOn hoffered).trans (runWord_of_error (s := s.setInputs rest) herror)

/-- Settles O14: the command is answered, a seeded block has two errors to answer with, and an error changes nothing. -/
theorem seededBlockHasTwoErrors : Obligations.SeededBlockHasTwoErrors := by
  intro s cw rest hinv hseeded hoffered
  obtain ⟨t, ws, hstep, -, htraffic, -⟩ := everyCommandIsAnsweredOnce s cw rest hinv hoffered
  refine ⟨t, _, hstep, by rw [htraffic, List.getLast?_concat], ?_⟩
  by_cases hok : responseTo cw s.seeded = .ok
  · exact .inl (congrArg Response.code hok)
  · cases (errorsChangeNothing s cw rest hoffered hok).symm.trans hstep
    refine .inr ⟨?_, rfl, rfl, rfl, rfl⟩
    rw [hseeded] at hok ⊢
    rcases responseTo_seeded_cases cw with h | ⟨hresponse, hseed⟩ | ⟨hresponse, hillegal⟩
    · exact absurd h hok
    · exact .inl ⟨congrArg Response.code hresponse, hseed⟩
    · exact .inr ⟨congrArg Response.code hresponse, hillegal⟩

/-- Settles O28: a FILL without a Generator is its response alone, and no other command must be answered NotSeeded. -/
theorem fillWithoutGeneratorIsRefused : Obligations.FillWithoutGeneratorIsRefused := by
  refine ⟨fun s len hseeded => fillOn_unseeded Config.block len hseeded, fun i s t hexec hlast => ?_⟩
  rw [exec_eq_execOn] at hexec
  obtain ⟨ws, htraffic, -, -⟩ := execOn_answers hexec
  have hcode : (i.answer s.seeded).code = Response.notSeeded.code := by
    simpa [htraffic, Response.code] using hlast
  exact Instr.answer_eq_notSeeded_iff.1 (Response.code_injective hcode)

end Sys2Proof.Machine
end

section
/-! Reset, between commands and during one (70_reset_and_hazards.md). -/

namespace Sys2Proof.Machine

variable {s t : State} {cw : CommandWord} {j : Nat} {rest : List Input}

/-- A step on reset with no command in progress takes the event off the inputs and resets the block, nothing else. -/
theorem step_of_reset (h : s.inputs = .reset :: rest) : step s = .next (s.setInputs rest).resetBlock := by
  simp [step, stepWith, h]

/-- A step on a command cut by reset cuts that word. -/
theorem step_of_commandCutByReset (h : s.inputs = .commandCutByReset cw j :: rest) :
    step s = cutWord exec cw j (s.setInputs rest) := by
  simp [step, stepWith, h]

/-- A cut that gives a next state cuts a command that would complete: of its writes the first `j` are performed, and the
Generator is gone (70_reset_and_hazards.md R184). -/
theorem cutWord_cases {run : Instr → State → Host.Outcome State Fault Refusal} (h : cutWord run cw j s = .next t) :
    ∃ u, runWord run cw s = .next u ∧
      t = ((s.accept cw).performWrites ((newWrites (s.accept cw) u).take j)).resetBlock := by
  unfold cutWord at h
  cases hrun : runWord run cw s with
  | next u =>
    rw [hrun] at h
    cases h
    exact ⟨u, rfl, rfl⟩
  | fault f =>
    rw [hrun] at h
    cases h
  | refused r =>
    rw [hrun] at h
    cases h

/-- Destination writes take nothing from the inputs. -/
@[simp] theorem State.performWrites_inputs (ws : List (Nat × Word)) (s : State) :
    (s.performWrites ws).inputs = s.inputs := by
  rw [State.performWrites_eq]

/-- Settles O10: either way the last thing done to the block is `resetBlock`, before which a cut command has only been
accepted and performed writes. -/
theorem resetEventUnmakesGenerator : Obligations.ResetEventUnmakesGenerator := by
  refine ⟨fun s rest hreset => step_of_reset hreset, fun s t cw j rest hcut hstep => ?_⟩
  rw [step_of_commandCutByReset hcut] at hstep
  obtain ⟨u, -, rfl⟩ := cutWord_cases hstep
  exact ⟨rfl, rfl, rfl, rfl, State.performWrites_inputs _ ((s.setInputs rest).accept cw)⟩

end Sys2Proof.Machine
end


section
/-! The encoder: the value of a command's word, and that decoding and encoding undo each other
(30_encoding.md section 4). -/

namespace Sys2Proof

open Machine

/-- The word of a command as a number (30_encoding.md R61, R73). -/
theorem encode_toNat (i : Instr) :
    (encode i).toNat = (argOf i).toNat * 65536 + (slenOf i).toNat * 256 + (opcodeOf i).toNat := by
  simp [encode, Laws.FixedFields.assemble_toNat]

theorem encode_seed_toNat (slen : Nat) (seed : Word) :
    (encode (.seed slen seed)).toNat = seed.toNat * 65536 + slen % 256 * 256 + 1 := by
  simp [encode_toNat, argOf, slenOf, opcodeOf]

theorem encode_fill_toNat (len : Nat) :
    (encode (.fill len)).toNat = len % 18446744073709551616 * 65536 + 2 := by
  simp [encode_toNat, argOf, slenOf, opcodeOf]

/-- Every FILL whose length fits its 64 bits has a legal word, and the word reads back (30_encoding.md R65). -/
theorem decode_encode_fill {len : Nat} (hlen : len < 18446744073709551616) :
    decode (encode (.fill len)) = .ok (.fill len) := by
  have hvalue := encode_fill_toNat len
  exact decode_eq_ok_fill_iff.2 ⟨by omega, by omega⟩

theorem wellFormed_seed_iff {slen : Nat} {seed : Word} : (Instr.seed slen seed).WellFormed ↔ slen < 256 :=
  decide_eq_true_iff

theorem wellFormed_fill_iff {len : Nat} : (Instr.fill len).WellFormed ↔ len < 18446744073709551616 :=
  decide_eq_true_iff

/-- Settles O1, row by row: well-formedness says that the operands survive their fields. -/
theorem decodeOfEncodeIsIdentity : Obligations.DecodeOfEncodeIsIdentity := by
  intro i hwf
  cases i with
  | nop => decide
  | seed slen seed => exact decode_encode_seed (wellFormed_seed_iff.1 hwf) seed
  | fill len => exact decode_encode_fill (wellFormed_fill_iff.1 hwf)
  | release => decide

/-- Settles O2, row by row: the fields of a legal word are those its command encodes to, and a word is its fields. -/
theorem encodeOfDecodeIsIdentity : Obligations.EncodeOfDecodeIsIdentity := by
  intro cw i hlegal
  have hcw := cw.isLt
  cases i with
  | nop => exact ⟨rfl, (decode_eq_ok_nop_iff.1 hlegal).symm⟩
  | release => exact ⟨rfl, (decode_eq_ok_release_iff.1 hlegal).symm⟩
  | seed slen seed =>
    obtain ⟨hlow, rfl, rfl⟩ := decode_eq_ok_seed_iff.1 hlegal
    refine ⟨wellFormed_seed_iff.2 (Nat.mod_lt _ (by decide)), BitVec.eq_of_toNat_eq ?_⟩
    rw [encode_seed_toNat, BitVec.toNat_ofNat]
    omega
  | fill len =>
    obtain ⟨hlow, rfl⟩ := decode_eq_ok_fill_iff.1 hlegal
    refine ⟨wellFormed_fill_iff.2 (by omega), BitVec.eq_of_toNat_eq ?_⟩
    rw [encode_fill_toNat]
    omega

/-- Settles O7: the word is accepted, which is its transfer, and its command runs. -/
theorem stepRunsDecodedCommand : Obligations.StepRunsDecodedCommand := fun s _ rest _ hoffered hlegal =>
  (step_of_command hoffered).trans (runWord_ok exec hlegal (s.setInputs rest))

/-- Settles O8: `stepWith` has an arm for empty inputs. -/
theorem idleStepChangesNothing : Obligations.IdleStepChangesNothing := by
  intro s h
  simp [step, stepWith, h]

end Sys2Proof
end

section
/-! The text of a command reads back (30_encoding.md R71): the decimal digits of a number have its value, and the
separators that the writer puts between the operands are the only ones in the line. -/

namespace Sys2Proof.Machine

/-- A character that neither separates tokens nor ends the line. -/
def PlainChar (ch : Char) : Prop := ch ≠ ';' ∧ ch ≠ ' ' ∧ ch ≠ '\t' ∧ ch ≠ ','

/-- One of `0` to `9`. -/
def DecimalDigit (ch : Char) : Prop := ∃ d, d < 10 ∧ ch = Char.ofNat (48 + d)

theorem DecimalDigit.plainChar {ch : Char} (h : DecimalDigit ch) : PlainChar ch := by
  obtain ⟨d, hd, rfl⟩ := h
  unfold PlainChar
  interval_cases d <;> decide

theorem DecimalDigit.ne_underscore {ch : Char} (h : DecimalDigit ch) : ch ≠ '_' := by
  obtain ⟨d, hd, rfl⟩ := h
  interval_cases d <;> decide

theorem DecimalDigit.ne_x {ch : Char} (h : DecimalDigit ch) : ch ≠ 'x' := by
  obtain ⟨d, hd, rfl⟩ := h
  interval_cases d <;> decide

theorem digitValue_ofNat {d : Nat} (hd : d < 10) : digitValue (Char.ofNat (48 + d)) = some d := by
  interval_cases d <;> decide

/-- Reading one decimal digit. -/
theorem readDigits_cons_digit {d : Nat} (hd : d < 10) (n : Nat) (cs : List Char) :
    readDigits 10 n (Char.ofNat (48 + d) :: cs) = readDigits 10 (n * 10 + d) cs := by
  rw [readDigits, if_neg (DecimalDigit.ne_underscore ⟨d, hd, rfl⟩), digitValue_ofNat hd]
  exact if_pos hd

/-- Reading the digits written for `n` gives `n`; more fuel than `n` is enough to write all of them. -/
theorem readDigits_decimalFrom {fuel n : Nat} (hfuel : n < fuel) (cs : List Char) :
    readDigits 10 0 (decimalFrom fuel n cs) = readDigits 10 n cs := by
  induction fuel generalizing n cs with
  | zero => omega
  | succ fuel ih =>
    have hdigit := Nat.mod_lt n (by decide : 10 > 0)
    rw [decimalFrom]
    split
    case isTrue hsmall => rw [readDigits_cons_digit hdigit, Nat.zero_mul, Nat.zero_add, Nat.mod_eq_of_lt hsmall]
    case isFalse hlarge => rw [ih (by omega), readDigits_cons_digit hdigit, Nat.div_add_mod']

/-- The writer puts decimal digits before what is there. -/
theorem decimalDigit_of_mem_decimalFrom {fuel n : Nat} {cs : List Char} (hcs : ∀ ch ∈ cs, DecimalDigit ch) :
    ∀ ch ∈ decimalFrom fuel n cs, DecimalDigit ch := by
  induction fuel generalizing n cs with
  | zero => exact hcs
  | succ fuel ih =>
    have hall : ∀ ch ∈ Char.ofNat (48 + n % 10) :: cs, DecimalDigit ch :=
      List.forall_mem_cons.2 ⟨⟨n % 10, Nat.mod_lt n (by decide), rfl⟩, hcs⟩
    rw [decimalFrom]
    split
    · exact hall
    · exact ih hall

theorem decimalDigit_of_mem_writeDecimal {n : Nat} : ∀ ch ∈ writeDecimal n, DecimalDigit ch :=
  decimalDigit_of_mem_decimalFrom (fun _ h => absurd h List.not_mem_nil)

/-- A literal of decimal digits alone has no `0x` and no underscore, so it is read in base ten. -/
theorem readLiteral_of_digits {cs : List Char} (hcs : ∀ ch ∈ cs, DecimalDigit ch) (hne : cs ≠ []) :
    readLiteral cs = readDigits 10 0 cs := by
  unfold readLiteral
  split
  case h_1 ch ds => exact absurd rfl (hcs 'x' (by simp)).ne_x
  case h_2 ch ds _ => exact if_neg (hcs ch (by simp)).ne_underscore
  case h_3 => exact absurd rfl hne

/-- With any fuel at all there is a digit. -/
theorem decimalFrom_succ_ne_nil (fuel n : Nat) (cs : List Char) : decimalFrom (fuel + 1) n cs ≠ [] := by
  induction fuel generalizing n cs with
  | zero => simp [decimalFrom]
  | succ fuel ih =>
    rw [decimalFrom]
    split
    · exact List.cons_ne_nil _ _
    · exact ih _ _

theorem writeDecimal_ne_nil (n : Nat) : writeDecimal n ≠ [] := decimalFrom_succ_ne_nil n n []

/-- A written number reads back. -/
@[simp] theorem readLiteral_writeDecimal (n : Nat) : readLiteral (writeDecimal n) = some n := by
  rw [readLiteral_of_digits decimalDigit_of_mem_writeDecimal (writeDecimal_ne_nil n), writeDecimal,
    readDigits_decimalFrom (Nat.lt_succ_self n), readDigits]

@[simp] theorem readWord_writeDecimal (w : Word) : readWord (writeDecimal w.toNat) = some w := by
  simp [readWord, w.isLt]

/-- Plain characters go to the token being read. -/
theorem tokensFrom_append_plain {ds : List Char} (hds : ∀ ch ∈ ds, PlainChar ch) (tok rest : List Char) :
    tokensFrom tok (ds ++ rest) = tokensFrom (tok ++ ds) rest := by
  induction ds generalizing tok with
  | nil => simp
  | cons ch ds ih =>
    obtain ⟨⟨hsemicolon, hblank, htab, hcomma⟩, htail⟩ := List.forall_mem_cons.1 hds
    rw [List.cons_append, tokensFrom, if_neg hsemicolon, if_neg (by simp [hblank, htab]), if_neg hcomma, ih htail,
      List.append_assoc, List.singleton_append]

/-- Plain characters up to the end of the line are its last token. -/
theorem tokensFrom_plain {ds : List Char} (hds : ∀ ch ∈ ds, PlainChar ch) (hne : ds ≠ []) :
    tokensFrom [] ds = [ds] := by
  have htokens := tokensFrom_append_plain hds [] []
  rw [List.append_nil, List.nil_append] at htokens
  rw [htokens, tokensFrom, flushToken, if_neg hne]

/-- Plain characters up to a blank are a token. -/
theorem tokensFrom_plain_blank {ds : List Char} (hds : ∀ ch ∈ ds, PlainChar ch) (hne : ds ≠ []) (rest : List Char) :
    tokensFrom [] (ds ++ ' ' :: rest) = ds :: tokensFrom [] rest := by
  rw [tokensFrom_append_plain hds]
  simp [tokensFrom, flushToken, hne]

/-- Plain characters up to a comma are a token, and so is the comma; a blank after it is skipped. -/
theorem tokensFrom_plain_comma_blank {ds : List Char} (hds : ∀ ch ∈ ds, PlainChar ch) (hne : ds ≠ [])
    (rest : List Char) :
    tokensFrom [] (ds ++ ',' :: ' ' :: rest) = ds :: [','] :: tokensFrom [] rest := by
  rw [tokensFrom_append_plain hds]
  simp [tokensFrom, flushToken, hne]

theorem plainChar_of_mem_writeDecimal {n : Nat} : ∀ ch ∈ writeDecimal n, PlainChar ch := fun ch h =>
  (decimalDigit_of_mem_writeDecimal ch h).plainChar

theorem plainChar_of_mem_seedName : ∀ ch ∈ seedName, PlainChar ch := by
  simp [seedName, PlainChar]

theorem plainChar_of_mem_fillName : ∀ ch ∈ fillName, PlainChar ch := by
  simp [fillName, PlainChar]

/-- The line of a SEED is its name, its two operands and the comma between them. -/
theorem tokensFrom_writeText_seed (slen : Nat) (seed : Word) :
    tokensFrom [] (writeText (.seed slen seed)) =
      [seedName, writeDecimal slen, [','], writeDecimal seed.toNat] := by
  rw [writeText, tokensFrom_plain_blank plainChar_of_mem_seedName (List.cons_ne_nil _ _),
    tokensFrom_plain_comma_blank plainChar_of_mem_writeDecimal (writeDecimal_ne_nil _),
    tokensFrom_plain plainChar_of_mem_writeDecimal (writeDecimal_ne_nil _)]

/-- The line of a FILL is its name and its operand. -/
theorem tokensFrom_writeText_fill (len : Nat) :
    tokensFrom [] (writeText (.fill len)) = [fillName, writeDecimal len] := by
  rw [writeText, tokensFrom_plain_blank plainChar_of_mem_fillName (List.cons_ne_nil _ _),
    tokensFrom_plain plainChar_of_mem_writeDecimal (writeDecimal_ne_nil _)]

/-- Settles O6, command by command: the line splits into the name and the operands, and the operands read back, which
well-formedness keeps within what the reader accepts. -/
theorem textReadsBack : Obligations.TextReadsBack := by
  intro i hwf
  cases i with
  | nop => decide
  | release => decide
  | seed slen seed =>
    rw [readText, tokensFrom_writeText_seed, readTokens, if_pos ⟨rfl, rfl⟩]
    simp [readSeed, wellFormed_seed_iff.1 hwf]
  | fill len =>
    rw [readText, tokensFrom_writeText_fill, readTokens, if_pos rfl]
    simp [readFill, wellFormed_fill_iff.1 hwf]

end Sys2Proof.Machine
end

section
/-! What a FILL stops on, leaves alone, and writes at each index (42_fill_stream_cursor.md R126, R132; 20_memory.md). -/

namespace Sys2Proof.Machine

variable {cfg : Config}

/-- Settles O29: lanes that are not `N` held words are those that read as no vector, the one case that stops a FILL. -/
theorem fillStopsOnlyOnLanesWithoutValue : Obligations.FillStopsOnlyOnLanesWithoutValue := by
  intro s len
  change _ ↔ fillOn Config.block len s = _
  rcases fillOn_cases (cfg := Config.block) len s with ⟨hseeded, hf⟩ | ⟨hseeded, hread, hf⟩ | ⟨v, hready, hf⟩
  · simp [hf, hseeded]
  · refine iff_of_true ⟨hseeded, fun v hheld => ?_⟩ hf
    cases hread.symm.trans (State.readLanes_of_held hheld)
  · rw [hf]
    exact iff_of_false (fun ⟨_, hnone⟩ => hnone v hready.lanes) nofun

/-- A completed FILL leaves every index from `len` on as it was (20_memory.md R42). -/
theorem State.read_filled_dst_of_le (v : LaneVec cfg) (s : State) {len k : Nat} (hk : len ≤ k) :
    (s.filled cfg len v).dst.read k = s.dst.read k := by
  rw [State.filled_dst, Memory.read_writeAll_placeAt, dif_neg]
  rw [filled_words_length]
  omega

/-- A FILL that gives a next state is refused, or is `filled` on a ready block. -/
theorem exec_fill_cases {s t : State} {len : Nat} (h : exec (.fill len) s = .next t) :
    t = s.raise .notSeeded ∨ ∃ v, Ready Config.block s v ∧ t = s.filled Config.block len v := by
  change fillOn Config.block len s = _ at h
  rcases fillOn_cases (cfg := Config.block) len s with ⟨-, hf⟩ | ⟨-, -, hf⟩ | ⟨v, hready, hf⟩
  · cases hf.symm.trans h
    exact .inl rfl
  · cases hf.symm.trans h
  · cases hf.symm.trans h
    exact .inr ⟨v, hready, rfl⟩

/-- Settles O31: a refused FILL is its response, and a completed one writes below `len` only. -/
theorem fillFrame : Obligations.FillFrame := by
  intro s t len h
  rcases exec_fill_cases h with rfl | ⟨v, -, rfl⟩
  · exact ⟨rfl, rfl, rfl, fun _ _ => rfl⟩
  · refine ⟨rfl, rfl, ?_, fun k hk => State.read_filled_dst_of_le v s hk⟩
    rw [State.filled_ghost, Option.map_map]
    rfl

/-- Position `p + k` lies in a round already run exactly where the cursor still holds its word: the cursor ends where
round `r` ends (42_fill_stream_cursor.md R126). -/
theorem Tracks.lt_cur_length_iff {s : State} {seed : Word} {r p : Nat} (h : Tracks cfg s seed r p) (k : Nat) :
    k < s.cur.length ↔ (p + k) / cfg.N + 1 ≤ r := by
  have hcount := h.count
  rw [Nat.succ_le_iff, Nat.div_lt_iff_lt_mul cfg.N_pos, Nat.mul_comm]
  omega

theorem streamWrites_getElem? (s0 : LaneVec cfg) (p : Nat) {len k : Nat} (hk : k < len) :
    (streamWrites cfg s0 p len)[k]? = some (k, stream cfg s0 (p + k)) := by
  simp [streamWrites, hk]

/-- A held word is the stream word at its position. -/
theorem Tracks.cur_getElem {s : State} {seed : Word} {r p : Nat} (h : Tracks cfg s seed r p) {k : Nat}
    (hk : k < s.cur.length) : s.cur[k] = stream cfg (expand cfg seed) (p + k) := by
  rw [List.getElem_of_eq h.cur_eq_streamFrom, streamFrom_getElem]

/-- Settles O38: the `k`-th word written is the stream word at position `p + k`, which the cursor holds if it is of a
round already run. -/
theorem multiplexerSelectsLaneByPosition : Obligations.MultiplexerSelectsLaneByPosition := by
  intro s seed r p len k htracks hk
  refine ⟨_, stream Config.block (expand Config.block seed) (p + k), fillOn_ready len htracks.ready, ?_, fun _ => rfl,
    htracks.lt_cur_length_iff k, fun hheld => (htracks.cur_getElem hheld).symm⟩
  rw [htracks.newWrites_eq_streamWrites, streamWrites_getElem? _ _ hk]

/-- Words are left to write after phase 1 only where the cursor could not supply them
(42_fill_stream_cursor.md R132). -/
theorem drainCursor_cur_eq_nil {r : FillRun cfg} (h : 0 < (drainCursor r).rem) : (drainCursor r).cur = [] := by
  have hrem : (drainCursor r).rem = r.rem - min r.cur.length r.rem := by
    simp [drainCursor, FillRun.deliver]
  exact List.drop_of_length_le (by omega)

/-- Phase 2 leaves the cursor alone, and words left after it are words left before it. -/
theorem bulkRounds_cur (r : FillRun cfg) : (bulkRounds r).cur = r.cur := by
  rw [bulkRounds, bulkPasses_eq]

/-- Settles O40: whatever is left to write after phase 1 or 2 was left after phase 1; fewer than `N` words are left
over if fewer were held; and a FILL within the held words leaves the lanes. -/
theorem roundsRunOnlyOnEmptyCursor : Obligations.RoundsRunOnlyOnEmptyCursor := by
  refine ⟨fun r => drainCursor_cur_eq_nil, fun r hrem => ?_, fun s t len hbound h => ?_⟩
  · rw [bulkRounds_rem] at hrem
    rw [bulkRounds_cur]
    exact drainCursor_cur_eq_nil (hrem.trans_le (Nat.mod_le ..))
  · rcases exec_fill_cases h with rfl | ⟨v, hready, rfl⟩
    · exact ⟨hbound, fun hne => absurd rfl hne⟩
    · refine ⟨?_, fun hne => Nat.lt_of_not_le fun hle => hne (hready.filled_of_le_cur hle).1⟩
      rw [State.filled_cur_length]
      exact (filled_words Config.block s.cur.length len).2 hbound

/-- Settles O44: `execOn_channels` gives a command other than FILL no writes to perform. -/
theorem onlyFillWritesDestination : Obligations.OnlyFillWritesDestination := by
  intro i s t hne h
  rw [exec_eq_execOn] at h
  obtain ⟨ws, rsp, htraffic, hdst, -, hnone⟩ := execOn_channels h
  obtain rfl := hnone hne
  refine ⟨hdst, ?_⟩
  rw [List.append_assoc] at htraffic
  rw [newWrites_of_traffic htraffic]
  rfl

/-- A block's standing in its stream is in what it holds, not in its boundary. -/
theorem Tracks.of_generator_eq {s t : State} {seed : Word} {r p : Nat} (h : Tracks cfg s seed r p)
    (hsame : t.generator = s.generator) : Tracks cfg t seed r p := by
  obtain ⟨hseeded, hlanes, hcur, hghost⟩ := State.generator_eq_iff.1 hsame
  exact { seeded := hseeded ▸ h.seeded, lanes := hlanes ▸ h.lanes, ghost := hghost ▸ h.ghost, count := hcur ▸ h.count,
          bound := hcur ▸ h.bound, words := hcur ▸ h.words }

/-- A step on an attach event takes it off the inputs and attaches the destination, nothing else. -/
theorem step_of_attach {s : State} {ws : List (Nat × Word)} {rest : List Input} (h : s.inputs = .attach ws :: rest) :
    step s = .next ((s.setInputs rest).attach ws) := by
  simp [step, stepWith, h]

/-- Settles O56: the block is as far along its stream after the attachment, and the FILL changes the attached words
below `len` alone. -/
theorem attachedDestinationIsUnrelated : Obligations.AttachedDestinationIsUnrelated := by
  refine ⟨fun s ws rest => step_of_attach, fun s seed r p len ws rest htracks hoffered => ?_⟩
  have hattached : Tracks Config.block ((s.setInputs rest).attach ws) seed r p := htracks.of_generator_eq rfl
  exact ⟨_, _, step_of_attach hoffered, fillOn_ready len hattached.ready, hattached.read_filled_dst len⟩

end Sys2Proof.Machine
end

section
/-! What a step can do to the Generator, and with it the invariant and its consequences (10_state.md R26, R27, R31;
70_reset_and_hazards.md R180). -/

namespace Sys2Proof.Machine

variable {cfg : Config} {s t : State}

/-- What a command can do to the Generator other than keep it: make another at the start of its seed's stream, run it
as FILL does, or discard it. -/
inductive GeneratorChange (cfg : Config) (s t : State) : Instr → Prop
  | made {slen : Nat} {seed : Word} (hslen : 64 ≤ slen) (h : Tracks cfg t seed 0 0) :
      GeneratorChange cfg s t (.seed slen seed)
  | filled {len : Nat} {v : LaneVec cfg} (hready : Ready cfg s v)
      (h : t.generator = (s.filled cfg len v).generator) : GeneratorChange cfg s t (.fill len)
  | discarded (h : t.generator = State.reset.generator) : GeneratorChange cfg s t .release

/-- NOP and errors keep the Generator. -/
theorem execOn_generator_cases {i : Instr} (h : execOn cfg i s = .next t) :
    t.generator = s.generator ∨ GeneratorChange cfg s t i := by
  cases i with
  | nop =>
    cases h
    exact .inl rfl
  | release =>
    cases h
    exact .inr (.discarded rfl)
  | seed slen seed =>
    rcases Nat.lt_or_ge slen 64 with hslen | hslen
    · cases (seedOn_insufficient cfg hslen seed s).symm.trans h
      exact .inl rfl
    · obtain ⟨u, hu, htracks⟩ := seedOn_tracks cfg hslen seed s
      cases hu.symm.trans h
      exact .inr (.made hslen htracks)
  | fill len =>
    rcases fillOn_cases (cfg := cfg) len s with ⟨-, hf⟩ | ⟨-, -, hf⟩ | ⟨v, hready, hf⟩
    · cases hf.symm.trans h
      exact .inl rfl
    · cases hf.symm.trans h
    · cases hf.symm.trans h
      exact .inr (.filled hready rfl)

/-- Only what the block holds before matters, not its boundary. -/
theorem GeneratorChange.of_generator_eq {u : State} {i : Instr} (h : GeneratorChange cfg u t i)
    (hsame : u.generator = s.generator) : GeneratorChange cfg s t i := by
  obtain ⟨hseeded, hlanes, hcur, hghost⟩ := State.generator_eq_iff.1 hsame
  cases h with
  | made hslen htracks => exact .made hslen htracks
  | discarded h => exact .discarded h
  | filled hready h =>
    refine .filled ⟨hseeded ▸ hready.seeded, hlanes ▸ hready.lanes⟩ (h.trans ?_)
    simp [State.generator, hseeded, hcur, hghost]

/-- A command word that completes is illegal and keeps the Generator, or does to it what its command does. -/
theorem runWord_generator_cases {cw : CommandWord} (h : runWord (execOn cfg) cw s = .next t) :
    t.generator = s.generator ∨ ∃ i, decode cw = .ok i ∧ GeneratorChange cfg s t i := by
  cases hdecode : decode cw with
  | error e =>
    cases (runWord_error _ hdecode s).symm.trans h
    exact .inl rfl
  | ok i =>
    rw [runWord_ok _ hdecode] at h
    exact (execOn_generator_cases h).imp id fun hi => ⟨i, rfl, hi.of_generator_eq rfl⟩

/-- A command cut by reset leaves no Generator. -/
theorem cutWord_generator {run : Instr → State → Host.Outcome State Fault Refusal} {cw : CommandWord} {j : Nat}
    (h : cutWord run cw j s = .next t) : t.generator = State.reset.generator := by
  obtain ⟨u, -, rfl⟩ := cutWord_cases h
  rfl

/-- What a step can do to the Generator. -/
theorem stepOn_generator_cases (h : stepOn cfg s = .next t) :
    t.generator = s.generator ∨
    (∃ cw rest i, s.inputs = .command cw :: rest ∧ decode cw = .ok i ∧ GeneratorChange cfg s t i) ∨
    (t.generator = State.reset.generator ∧
      ((∃ rest, s.inputs = .reset :: rest) ∨ ∃ cw j rest, s.inputs = .commandCutByReset cw j :: rest)) := by
  rcases stepWith_cases (execOn cfg) s with ⟨-, hstep⟩ | ⟨cw, rest, hinputs, hstep⟩ | ⟨ws, rest, -, hstep⟩ |
    ⟨rest, hinputs, hstep⟩ | ⟨cw, j, rest, hinputs, hstep⟩
  · cases hstep.symm.trans h
    exact .inl rfl
  · rcases runWord_generator_cases (hstep.symm.trans h) with hkept | ⟨i, hdecode, hi⟩
    · exact .inl hkept
    · exact .inr (.inl ⟨cw, rest, i, hinputs, hdecode, hi.of_generator_eq rfl⟩)
  · cases hstep.symm.trans h
    exact .inl rfl
  · cases hstep.symm.trans h
    exact .inr (.inr ⟨rfl, .inl ⟨rest, hinputs⟩⟩)
  · exact .inr (.inr ⟨cutWord_generator (hstep.symm.trans h), .inr ⟨cw, j, rest, hinputs⟩⟩)

theorem State.seeded_eq_of_generator_eq (h : s.generator = t.generator) : s.seeded = t.seeded := congrArg Prod.fst h

theorem State.cur_eq_of_generator_eq (h : s.generator = t.generator) : s.cur = t.cur := congrArg (fun g => g.2.2.1) h

theorem Tracks.cur_eq_nil_of_start {seed : Word} (h : Tracks cfg s seed 0 0) : s.cur = [] :=
  h.cur_eq_nil_iff.2 (dvd_zero _)

/-- Settles O47: of what a step can do to the Generator, only a FILL leaves a cursor that is neither the old one nor
empty. -/
theorem onlyFillMutatesCursor : Obligations.OnlyFillMutatesCursor := by
  intro s t h
  rw [step_eq_stepOn] at h
  rcases stepOn_generator_cases h with hkept | ⟨cw, rest, i, hinputs, hdecode, hi⟩ | ⟨hreset, -⟩
  · exact .inl (State.cur_eq_of_generator_eq hkept)
  · cases hi with
    | made _ htracks => exact .inr (.inl htracks.cur_eq_nil_of_start)
    | filled hready _ => exact .inr (.inr ⟨cw, rest, _, hinputs, hdecode, hready.seeded⟩)
    | discarded hreset => exact .inr (.inl (State.cur_eq_of_generator_eq hreset))
  · exact .inr (.inl (State.cur_eq_of_generator_eq hreset))

/-- Settles O48: of what a step can do to the Generator, only a SEED makes one and only RELEASE and reset discard it. -/
theorem onlySeedSetsAndReleaseClearsFlag : Obligations.OnlySeedSetsAndReleaseClearsFlag := by
  intro s t h
  rw [step_eq_stepOn] at h
  rcases stepOn_generator_cases h with hkept | ⟨cw, rest, i, hinputs, hdecode, hi⟩ | ⟨hreset, hevent⟩
  · have hsame := State.seeded_eq_of_generator_eq hkept
    exact ⟨fun hoff hon => by simp [hsame, hoff] at hon, fun hon hoff => by simp [hsame, hon] at hoff⟩
  · cases hi with
    | made hslen htracks =>
      exact ⟨fun _ _ => ⟨cw, rest, _, _, hinputs, hdecode, hslen⟩, fun _ hoff => by simp [htracks.seeded] at hoff⟩
    | filled hready hfilled =>
      have hon : t.seeded = true := (State.seeded_eq_of_generator_eq hfilled).trans hready.seeded
      exact ⟨fun hoff _ => by simp [hready.seeded] at hoff, fun _ hoff => by simp [hon] at hoff⟩
    | discarded hreset =>
      have hoff : t.seeded = false := State.seeded_eq_of_generator_eq hreset
      exact ⟨fun _ hon => by simp [hoff] at hon, fun _ _ => .inl ⟨cw, rest, hinputs, hdecode⟩⟩
  · have hoff : t.seeded = false := State.seeded_eq_of_generator_eq hreset
    exact ⟨fun _ hon => by simp [hoff] at hon, fun _ _ => .inr hevent⟩

end Sys2Proof.Machine
end

section
/-! The invariant: it holds at reset, every step keeps it, and under it every step completes (10_state.md R22, R27, R31;
70_reset_and_hazards.md R180). -/

namespace Sys2Proof.Machine

variable {cfg : Config} {s t : State}

theorem State.reset_inv (cfg : Config) : State.reset.Inv cfg where
  dst := Memory.reset_wf
  unseeded _ := ⟨rfl, rfl, rfl⟩
  seeded := nofun

/-- Settles O50: at reset nothing is held and the destination is empty. -/
theorem invariantHoldsAtReset : Obligations.InvariantHoldsAtReset := State.reset_inv Config.block

/-- A block at a stream position has the invariant if its destination is canonical. -/
theorem Tracks.inv {seed : Word} {r p : Nat} (h : Tracks cfg s seed r p) (hdst : s.dst.wf) : s.Inv cfg where
  dst := hdst
  unseeded hseeded := by simp [h.seeded] at hseeded
  seeded _ := ⟨seed, r, p, h⟩

/-- The invariant is about what the block holds, and about the destination's form. -/
theorem State.Inv.of_generator_eq (h : s.Inv cfg) (hsame : t.generator = s.generator) (hdst : t.dst.wf) :
    t.Inv cfg := by
  obtain ⟨hseeded, hlanes, hcur, hghost⟩ := State.generator_eq_iff.1 hsame
  refine { dst := hdst, unseeded := fun hoff => ?_, seeded := fun hon => ?_ }
  · rw [hlanes, hcur, hghost]
    exact h.unseeded (hseeded ▸ hoff)
  · obtain ⟨seed, r, p, htracks⟩ := h.seeded (hseeded ▸ hon)
    exact ⟨seed, r, p, htracks.of_generator_eq hsame⟩

/-- Under the invariant a ready block stands at a position of a stream, with the lanes of that position. -/
theorem State.Inv.tracks_of_ready {v : LaneVec cfg} (h : s.Inv cfg) (hready : Ready cfg s v) :
    ∃ seed r p, v = xsVecIter cfg r (expand cfg seed) ∧ Tracks cfg s seed r p := by
  obtain ⟨seed, r, p, htracks⟩ := h.seeded hready.seeded
  have hheld := hready.lanes.symm.trans htracks.lanes
  rw [Lanes.held.injEq] at hheld
  exact ⟨seed, r, p, List.ofFn_injective hheld, htracks⟩

/-- Whatever a command does to the Generator, the invariant stays. -/
theorem State.Inv.of_generatorChange {i : Instr} (h : s.Inv cfg) (hi : GeneratorChange cfg s t i) (hdst : t.dst.wf) :
    t.Inv cfg := by
  cases hi with
  | made _ htracks => exact htracks.inv hdst
  | discarded hreset => exact (State.reset_inv cfg).of_generator_eq hreset hdst
  | filled hready hfilled =>
    obtain ⟨seed, r, p, rfl, htracks⟩ := h.tracks_of_ready hready
    exact ((htracks.filled _).of_generator_eq hfilled).inv hdst

/-- A step writes to the attached destination in order, or attaches another. -/
theorem stepOn_dst_cases (h : stepOn cfg s = .next t) :
    ∃ ws, t.dst = s.dst.writeAll ws ∨ t.dst = Memory.ofContents ws := by
  rcases stepWith_cases (execOn cfg) s with ⟨-, hstep⟩ | ⟨cw, rest, -, hstep⟩ | ⟨ws, rest, -, hstep⟩ |
    ⟨rest, -, hstep⟩ | ⟨cw, j, rest, -, hstep⟩
  · cases hstep.symm.trans h
    exact ⟨[], .inl rfl⟩
  · obtain ⟨ws, -, -, hdst, -⟩ := runWord_channels (hstep.symm.trans h)
    exact ⟨ws, .inl hdst⟩
  · cases hstep.symm.trans h
    exact ⟨ws, .inr rfl⟩
  · cases hstep.symm.trans h
    exact ⟨[], .inl rfl⟩
  · obtain ⟨u, -, rfl⟩ := cutWord_cases (hstep.symm.trans h)
    exact ⟨_, .inl (congrArg State.dst (State.performWrites_eq _ ((s.setInputs rest).accept cw)))⟩

theorem stepOn_dst_wf (h : stepOn cfg s = .next t) (hdst : s.dst.wf) : t.dst.wf := by
  obtain ⟨ws, hwritten | hattached⟩ := stepOn_dst_cases h
  · exact hwritten ▸ Memory.writeAll_wf ws hdst
  · exact hattached ▸ Memory.ofContents_wf ws

/-- Settles O51, by what a step can do to the Generator and to the destination. -/
theorem stepKeepsInvariant : Obligations.StepKeepsInvariant := by
  intro s t hinv h
  rw [step_eq_stepOn] at h
  have hdst := stepOn_dst_wf h hinv.dst
  rcases stepOn_generator_cases h with hkept | ⟨_, _, _, -, -, hi⟩ | ⟨hreset, -⟩
  · exact hinv.of_generator_eq hkept hdst
  · exact hinv.of_generatorChange hi hdst
  · exact (State.reset_inv Config.block).of_generator_eq hreset hdst

/-- Without a FILL there is nothing to write. -/
theorem writeCountOf_eq_zero {cw : CommandWord} (h : ∀ len, decode cw ≠ .ok (.fill len)) (seeded : Bool) :
    writeCountOf cw seeded = 0 := by
  cases hdecode : decode cw with
  | error e => exact writeCountOf_of_illegal hdecode seeded
  | ok i =>
    rw [writeCountOf_of_legal hdecode]
    cases i with
    | nop => rfl
    | seed slen seed => rfl
    | release => rfl
    | fill len => exact absurd hdecode (h len)

@[simp] theorem streamWrites_length (s0 : LaneVec cfg) (p len : Nat) : (streamWrites cfg s0 p len).length = len := by
  simp [streamWrites]

theorem streamWrites_take (s0 : LaneVec cfg) (p len j : Nat) :
    (streamWrites cfg s0 p len).take j = streamWrites cfg s0 p (min j len) := by
  simp [streamWrites, ← List.map_take, List.take_range]

/-- Whatever word a block at stream position `p` completes, the writes it performs are the next stream words: a FILL's
are, and no other command has any. -/
theorem Tracks.writes_of_runWord {seed : Word} {r p : Nat} (h : Tracks cfg s seed r p) {cw : CommandWord}
    {ws : List (Nat × Word)} {rsp : ResponseWord} (hrun : runWord (execOn cfg) cw s = .next t)
    (htraffic : t.traffic = s.traffic ++ [.command cw] ++ asTransfers ws ++ [.response rsp])
    (hcount : ws.length = writeCountOf cw s.seeded) : ws = streamWrites cfg (expand cfg seed) p ws.length := by
  by_cases hfill : ∃ len, decode cw = .ok (.fill len)
  · obtain ⟨len, hdecode⟩ := hfill
    have haccepted : Tracks cfg (s.accept cw) seed r p := h.of_generator_eq rfl
    rw [runWord_ok _ hdecode] at hrun
    cases (fillOn_ready len haccepted.ready).symm.trans hrun
    have hwrites := haccepted.newWrites_eq_streamWrites len
    rw [List.append_assoc _ (asTransfers ws)] at htraffic
    rw [newWrites_of_traffic (s := s.accept cw) htraffic, writesIn_append, writesIn_asTransfers, writesIn_response,
      List.append_nil] at hwrites
    rw [hwrites, streamWrites_length]
  · rw [writeCountOf_eq_zero (not_exists.1 hfill), List.length_eq_zero_iff] at hcount
    rw [hcount]
    rfl

/-- Under the invariant a command cut by reset would complete, so the cut leaves the first `j` of its writes. -/
theorem State.Inv.cutWord_eq (h : s.Inv cfg) (cw : CommandWord) (j : Nat) :
    ∃ ws, cutWord (execOn cfg) cw j s = .next { s with
        seeded := false, lanes := .noValue, cur := [], ghost := none,
        dst := s.dst.writeAll (ws.take j),
        traffic := s.traffic ++ [.command cw] ++ asTransfers (ws.take j) } ∧
      ws.length = writeCountOf cw s.seeded ∧
      ∀ seed r p, Tracks cfg s seed r p → ws = streamWrites cfg (expand cfg seed) p ws.length := by
  obtain ⟨t, hrun⟩ := h.runWord_completes cw
  obtain ⟨ws, htraffic, -, hcount⟩ := runWord_answers hrun
  exact ⟨ws, cutWord_of_traffic _ hrun htraffic j, hcount,
    fun _ _ _ htracks => htracks.writes_of_runWord hrun htraffic hcount⟩

/-- A step on a command cut by reset cuts that word on the block built with `Config.block`. -/
theorem step_of_commandCutByReset_execOn {cw : CommandWord} {j : Nat} {rest : List Input}
    (h : s.inputs = .commandCutByReset cw j :: rest) :
    step s = cutWord (execOn Config.block) cw j (s.setInputs rest) :=
  (step_of_commandCutByReset h).trans (congrArg (fun run => cutWord run cw j _) (funext₂ exec_eq_execOn))

/-- Settles O11: a cut command leaves the first of its writes, which are the next stream words; a command that is not
cut is answered. -/
theorem resetDuringCommandLeavesPrefix : Obligations.ResetDuringCommandLeavesPrefix := by
  refine ⟨fun s cw j rest hinv hcut => ?_, fun s cw rest hinv hoffered => ?_⟩
  · obtain ⟨ws, hstep, hcount, hstream⟩ := (hinv.setInputs rest).cutWord_eq cw j
    refine ⟨ws.take j, (step_of_commandCutByReset_execOn hcut).trans hstep, ?_, fun seed r p htracks => ?_⟩
    · rw [List.length_take, hcount]
      rfl
    · rw [List.length_take, ← streamWrites_take, ← hstream seed r p (htracks.setInputs rest)]
  · obtain ⟨t, ws, hstep, -, htraffic, -⟩ := everyCommandIsAnsweredOnce s cw rest hinv hoffered
    exact ⟨t, _, hstep, by rw [htraffic, List.getLast?_concat]⟩

/-- Settles O52: under the invariant a command word is answered, cut or not, and no other input can fail. -/
theorem stepCompletesUnderInvariant : Obligations.StepCompletesUnderInvariant := by
  intro s hinv
  rw [step_eq_stepOn]
  rcases stepWith_cases (execOn Config.block) s with ⟨-, hstep⟩ | ⟨cw, rest, -, hstep⟩ | ⟨ws, rest, -, hstep⟩ |
    ⟨rest, -, hstep⟩ | ⟨cw, j, rest, -, hstep⟩
  · exact ⟨_, hstep⟩
  · obtain ⟨t, hrun⟩ := (hinv.setInputs rest).runWord_completes cw
    exact ⟨t, hstep.trans hrun⟩
  · exact ⟨_, hstep⟩
  · exact ⟨_, hstep⟩
  · obtain ⟨ws, hcut, -, -⟩ := (hinv.setInputs rest).cutWord_eq cw j
    exact ⟨_, hstep.trans hcut⟩

/-- A run that takes a step goes on from the state it leads to. -/
theorem run_succ_of_step {M : Host.Core} {s t : M.State} (h : M.step s = .next t) (k : Nat) :
    M.run (k + 1) s = M.run k t := by
  rw [Host.Core.run, h]

/-- Under the invariant a run of any length completes and keeps it. -/
theorem State.Inv.run_completes (h : s.Inv Config.block) (k : Nat) :
    ∃ t, Sys2Proof.core.run k s = .next t ∧ t.Inv Config.block := by
  induction k generalizing s with
  | zero => exact ⟨s, rfl, h⟩
  | succ k ih =>
    obtain ⟨u, hstep⟩ := stepCompletesUnderInvariant s h
    obtain ⟨t, hrun, hinv⟩ := ih (stepKeepsInvariant s u h hstep)
    exact ⟨t, (run_succ_of_step (M := Sys2Proof.core) hstep k).trans hrun, hinv⟩

/-- Settles O53: the invariant holds at reset whatever is offered, and a run from there keeps it. -/
theorem runsFromResetNeverStop : Obligations.RunsFromResetNeverStop := fun offered k =>
  ((State.reset_inv Config.block).setInputs offered).run_completes k

end Sys2Proof.Machine
end

section
/-! What a step never reads: the ghosts and the destination (10_state.md R31; 20_memory.md R41). One simulation serves
both: two states that agree in all the rest answer alike. -/

namespace Sys2Proof.Machine

variable {cfg : Config} {g d : Prop} {s t : State}

/-- The states agree in every field but the ghosts and the destination, in the ghosts where `g` holds, and in the
destination where `d` does. -/
structure Alike (g d : Prop) (s t : State) : Prop where
  seeded : s.seeded = t.seeded
  lanes : s.lanes = t.lanes
  cur : s.cur = t.cur
  inputs : s.inputs = t.inputs
  traffic : s.traffic = t.traffic
  ghost : g → s.ghost = t.ghost
  dst : d → s.dst = t.dst

/-- The same outcome, up to what `Alike` leaves open in the next state. -/
inductive AnswersAlike (g d : Prop) : Host.Outcome State Fault Refusal → Host.Outcome State Fault Refusal → Prop
  | next {s t : State} (h : Alike g d s t) : AnswersAlike g d (.next s) (.next t)
  | fault (f : Fault) : AnswersAlike g d (.fault f) (.fault f)
  | refused (r : Refusal) : AnswersAlike g d (.refused r) (.refused r)

theorem AnswersAlike.exists_next {y : Host.Outcome State Fault Refusal} (h : AnswersAlike g d (.next s) y) :
    ∃ t, y = .next t ∧ Alike g d s t := by
  cases h with
  | next h => exact ⟨_, rfl, h⟩

theorem Alike.send (h : Alike g d s t) (x : Transfer) : Alike g d (s.send x) (t.send x) :=
  { h with traffic := congrArg (· ++ [x]) h.traffic }

theorem Alike.accept (h : Alike g d s t) (cw : CommandWord) : Alike g d (s.accept cw) (t.accept cw) := h.send _

theorem Alike.setInputs (h : Alike g d s t) (l : List Input) : Alike g d (s.setInputs l) (t.setInputs l) :=
  { h with inputs := rfl }

theorem Alike.attach (h : Alike g d s t) (ws : List (Nat × Word)) : Alike g d (s.attach ws) (t.attach ws) :=
  { h with dst := fun _ => rfl }

theorem Alike.setSeeded (h : Alike g d s t) (b : Bool) : Alike g d (s.setSeeded b) (t.setSeeded b) :=
  { h with seeded := rfl }

theorem Alike.setLanes (h : Alike g d s t) (l : Lanes) : Alike g d (s.setLanes l) (t.setLanes l) :=
  { h with lanes := rfl }

theorem Alike.setCur (h : Alike g d s t) (q : List Word) : Alike g d (s.setCur q) (t.setCur q) :=
  { h with cur := rfl }

theorem Alike.setGhost (h : Alike g d s t) {x y : Option Ghost} (hxy : g → x = y) :
    Alike g d (s.setGhost x) (t.setGhost y) :=
  { h with ghost := hxy }

theorem Alike.discardGenerator (h : Alike g d s t) : Alike g d s.discardGenerator t.discardGenerator :=
  (((h.setSeeded _).setCur _).setLanes _).setGhost fun _ => rfl

theorem Alike.construct (h : Alike g d s t) (v : LaneVec cfg) : Alike g d (s.construct v) (t.construct v) :=
  (((h.setLanes _).setCur _).setSeeded _).setGhost fun _ => rfl

theorem Alike.performWrites (h : Alike g d s t) (ws : List (Nat × Word)) :
    Alike g d (s.performWrites ws) (t.performWrites ws) := by
  rw [State.performWrites_eq, State.performWrites_eq]
  exact { h with
    traffic := congrArg (· ++ _) h.traffic
    dst := fun hd => congrArg (Memory.writeAll ws) (h.dst hd) }

theorem Alike.commitFill (h : Alike g d s t) (len : Nat) (r : FillRun cfg) :
    Alike g d (s.commitFill len r) (t.commitFill len r) :=
  (((h.setLanes _).setCur _).setGhost fun hg => congrArg (Option.map _) (h.ghost hg)).performWrites r.writes

theorem Alike.readLanes (h : Alike g d s t) : s.readLanes cfg = t.readLanes cfg := by
  rw [State.readLanes, State.readLanes, h.lanes]

/-- What a FILL does is decided by the flag, the lanes and the cursor. -/
theorem Alike.fillOn (h : Alike g d s t) (len : Nat) : AnswersAlike g d (fillOn cfg len s) (fillOn cfg len t) := by
  unfold Machine.fillOn
  rw [h.seeded, h.readLanes, h.cur]
  split
  · split
    · exact .next ((h.commitFill _ _).send _)
    · exact .fault _
  · exact .next (h.send _)

theorem Alike.seedOn (h : Alike g d s t) (slen : Nat) (seed : Word) :
    AnswersAlike g d (seedOn cfg slen seed s) (seedOn cfg slen seed t) := by
  unfold Machine.seedOn
  split
  · exact .next ((h.construct _).send _)
  · exact .next (h.send _)

theorem Alike.execOn (h : Alike g d s t) (i : Instr) : AnswersAlike g d (execOn cfg i s) (execOn cfg i t) := by
  cases i with
  | nop => exact .next (h.send _)
  | seed slen seed => exact h.seedOn slen seed
  | fill len => exact h.fillOn len
  | release => exact .next (h.discardGenerator.send _)

theorem Alike.runWord (h : Alike g d s t) (cw : CommandWord) :
    AnswersAlike g d (runWord (Machine.execOn cfg) cw s) (runWord (Machine.execOn cfg) cw t) := by
  unfold Machine.runWord
  split
  · exact (h.accept cw).execOn _
  · exact .next ((h.accept cw).send _)

/-- A command cut by reset performs the first of the writes it would have performed, which are the same for both. -/
theorem Alike.cutWord (h : Alike g d s t) (cw : CommandWord) (j : Nat) :
    AnswersAlike g d (cutWord (Machine.execOn cfg) cw j s) (cutWord (Machine.execOn cfg) cw j t) := by
  have hrun := h.runWord (cfg := cfg) cw
  unfold Machine.cutWord
  generalize Machine.runWord (Machine.execOn cfg) cw s = x at hrun ⊢
  generalize Machine.runWord (Machine.execOn cfg) cw t = y at hrun ⊢
  cases hrun with
  | fault f => exact .fault f
  | refused r => exact .refused r
  | next hnext =>
    dsimp only
    rw [hnext.traffic, (h.accept cw).traffic]
    exact .next ((h.accept cw).performWrites _).discardGenerator

theorem Alike.stepOn (h : Alike g d s t) : AnswersAlike g d (stepOn cfg s) (stepOn cfg t) := by
  unfold Machine.stepOn stepWith
  rw [← h.inputs]
  split
  · exact .next h
  · exact (h.setInputs _).runWord _
  · exact .next ((h.setInputs _).attach _)
  · exact .next (h.setInputs _).discardGenerator
  · exact (h.setInputs _).cutWord _ _

theorem Alike.step (h : Alike g d s t) : AnswersAlike g d (step s) (step t) := by
  rw [step_eq_stepOn, step_eq_stepOn]
  exact h.stepOn

theorem alike_eraseGhost (s : State) : Alike False True s.eraseGhost s :=
  ⟨rfl, rfl, rfl, rfl, rfl, False.elim, fun _ => rfl⟩

theorem alike_setDst (s : State) (m : Memory) : Alike True False s (s.setDst m) :=
  ⟨rfl, rfl, rfl, rfl, rfl, fun _ => rfl, False.elim⟩

/-- States that differ in the ghosts alone are one state without them. -/
theorem Alike.eraseGhost_eq (h : Alike False True s t) : s.eraseGhost = t.eraseGhost := by
  obtain ⟨hseeded, hlanes, hcur, hinputs, htraffic, -, hdst⟩ := h
  simp [State.eraseGhost, State.setGhost, hseeded, hlanes, hcur, hinputs, htraffic, hdst]

/-- States that differ in the destination alone are one state with another destination. -/
theorem Alike.eq_setDst (h : Alike True False s t) : t = s.setDst t.dst := by
  obtain ⟨hseeded, hlanes, hcur, hinputs, htraffic, hghost, -⟩ := h
  simp [State.setDst, hseeded, hlanes, hcur, hinputs, htraffic, hghost]

theorem AnswersAlike.eraseGhost_eq {x y : Host.Outcome State Fault Refusal} (h : AnswersAlike False True x y) :
    eraseGhostOutcome x = eraseGhostOutcome y := by
  cases h with
  | next h => exact congrArg Host.Outcome.next h.eraseGhost_eq
  | fault f => rfl
  | refused r => rfl

/-- Settles O49: a state and the state without its ghosts answer alike. -/
theorem ghostsDecideNothing : Obligations.GhostsDecideNothing := fun s =>
  (alike_eraseGhost s).step.eraseGhost_eq

/-- Settles O57: a state and the state with another destination answer alike. -/
theorem destinationIsNeverRead : Obligations.DestinationIsNeverRead := by
  intro s t m hstep
  have hanswers := (alike_setDst s m).step
  rw [hstep] at hanswers
  obtain ⟨u, hstep', halike⟩ := hanswers.exists_next
  exact ⟨u.dst, hstep'.trans (congrArg Host.Outcome.next halike.eq_setDst)⟩

end Sys2Proof.Machine
end
